-- ==== Sys2Proof/Word.lean ====
section
/-! DEFINITION. The machine's two word types (spec/00_scope.md R8, XLEN = 32). -/

namespace Sys2Proof

/-- One byte, `u8`. -/
abbrev Byte := BitVec 8

/-- A 32-bit word, `u32`: addresses, register contents, `pc`, `IR`. -/
abbrev Word := BitVec 32

end Sys2Proof
end

