-- ==== Sys2Proof/Syntax.lean ====
section
/-! DEFINITION. The operation descriptor of spec/30_encoding.md R64, one constructor per row of
spec/opcode_table.json. -/

namespace Sys2Proof

/-- The operation descriptor `OpDesc` (R64). -/
inductive Instr
  /-- `NOP`: the no-op of R63. -/
  | nop
  /-- `UNCLASSIFIED`: every other word, carried unchanged. -/
  | unclassified (w : Word)
deriving DecidableEq, Repr

end Sys2Proof
end

