-- ==== Sys2Proof/Decode.lean ====
section
/-! DEFINITION. The no-op's word, the I-type fields it is written in, the byte order of an instruction, the decode
stage and the encoder (spec/30_encoding.md R60 to R66). -/

namespace Sys2Proof

/-- The RISC-V I-type fields (R61). No rule of the block reads them; they only say how the no-op's pattern is
written. -/
structure IType where
  imm    : BitVec 12
  rs1    : BitVec 5
  funct3 : BitVec 3
  rd     : BitVec 5
  opcode : BitVec 7
deriving DecidableEq, Repr

/-- The word of the fields: `imm` in 31:20, `rs1` 19:15, `funct3` 14:12, `rd` 11:7, `opcode` 6:0 (R61). -/
def IType.toWord (f : IType) : Word :=
  f.imm ++ f.rs1 ++ f.funct3 ++ f.rd ++ f.opcode

/-- The fields of a word (R61). -/
def IType.ofWord (w : Word) : IType where
  imm    := w.extractLsb' 20 12
  rs1    := w.extractLsb' 15 5
  funct3 := w.extractLsb' 12 3
  rd     := w.extractLsb' 7 5
  opcode := w.extractLsb' 0 7

/-- The architecturally-defined no-op, `0x00000013` (R63, decision D2). UNVERIFIED: the spec supplies the bits
from general knowledge (G1); unsafe, notes/assumptions/13.md. -/
def nopWord : Word := 0x00000013#32

/-- The word whose bytes, lowest address first, are the ones given (R38): byte `i` holds bits `8i+7 : 8i`. A list of
fewer than four bytes gives the zero-extended value. -/
def Word.ofBytes : List Byte → Word
  | [] => 0#32
  | v :: vs => v.setWidth 32 ||| (Word.ofBytes vs <<< 8)

/-- The low `n` bytes of a word, lowest address first (R38, R40): byte `i` is bits `8i+7 : 8i`. -/
def Word.toBytes : Nat → Word → List Byte
  | 0, _ => []
  | n + 1, v => v.setWidth 8 :: Word.toBytes n (v >>> 8)

/-- The stub decode (R65): it compares the whole word. -/
def decode (w : Word) : Instr :=
  if w = nopWord then .nop else .unclassified w

/-- The instruction word of a descriptor (R63, R66). -/
def encode : Instr → Word
  | .nop => nopWord
  | .unclassified w => w

/-- The four bytes of a descriptor in memory, ascending addresses (R60). -/
def encodeBytes (i : Instr) : List Byte :=
  Word.toBytes 4 (encode i)

/-- Why a byte string holds no instruction. -/
inductive DecodeError
  /-- Fewer than the four bytes of R60. Safe: no fetch of the machine gives such a string. -/
  | truncated
deriving DecidableEq, Repr

/-- Decode the first instruction of a byte string and give the rest (R60: one length, 4 bytes). -/
def decodeBytes : List Byte → Except DecodeError (Instr × List Byte)
  | b0 :: b1 :: b2 :: b3 :: rest => .ok (decode (Word.ofBytes [b0, b1, b2, b3]), rest)
  | _ => .error .truncated

/-- The instruction's bytes as the opcode table numbers its bits: bit 0 is the least significant bit of the first
byte; bits at and above `nbits` are 0. -/
def tableBytes (nbits w : Nat) : List Byte :=
  Word.toBytes 4 (BitVec.ofNat 32 (w % 2 ^ nbits))

/-- What the decoder reads from an instruction whose bits are `w`; none for a row longer than the one instruction
length of R60. -/
def decodeTableWord (nbits w : Nat) : Option Instr :=
  if nbits ≤ 32 then
    match decodeBytes (tableBytes nbits w) with
    | .ok (i, []) => some i
    | _ => none
  else none

end Sys2Proof
end

