-- ==== Sys2Proof/Config.lean ====
section
/-! DEFINITION. The implementation parameters of spec/00_scope.md R8 as plain data, and the one value the spec leaves
without any choice, the rendering of a trace line. -/

namespace Sys2Proof

/-- The three permission flags of a bank (R42). -/
structure Permissions where
  read    : Bool
  write   : Bool
  execute : Bool
deriving DecidableEq, Repr

/-- One memory-bank entry of the topology (R8 `BANKS`, R11). The name has no effect on any rule (R12). -/
structure BankEntry where
  name : String
  base : Word
  size : Word
  perm : Permissions
deriving DecidableEq, Repr

/-- One hart entry of the topology (R8 `HARTS`, R11) with its `RESET_ADDR(id)`: an address the configuration
supplies, or `none` for the image's entry point (R122, decision D8). -/
structure HartEntry where
  id        : Nat
  resetAddr : Option Word
deriving DecidableEq, Repr

/-- What a tick does with a word the stub decode does not classify (R78, `UNCLASSIFIED_POLICY`). -/
inductive UnclassifiedPolicy
  | refuse
  | scaffoldNoop
deriving DecidableEq, Repr

/-- How far a fault reaches (R103, `FAULT_SCOPE`). -/
inductive FaultScope
  | terminateSimulation
  | haltHart
deriving DecidableEq, Repr

/-- The allow-list of segment flag words (R91, R92, `ALLOWED_FLAGS`): the words listed, or every word. -/
inductive AllowList
  | listed (flags : List Word)
  | everything
deriving DecidableEq, Repr

/-- The two drivers the source describes (R83): round-robin (R84), and one hart's `run()` to completion before the
next (R81). -/
inductive Driver
  | roundRobin
  | runToCompletion
deriving DecidableEq, Repr

/-- The parameters of R8. They are configuration: no step changes them. -/
structure Params where
  banks              : List BankEntry
  harts              : List HartEntry
  allowedFlags       : AllowList
  unclassifiedPolicy : UnclassifiedPolicy
  enforcePermissions : Bool
  faultScope         : FaultScope
  fetchAlignCheck    : Bool
  elfCheckMagic      : Bool
  verbose            : Bool
  driver             : Driver
  maxitr             : Option Nat
deriving DecidableEq, Repr

/-- The defaults of R8 over a given topology; `ALLOWED_FLAGS` is the preset "text+data only" (R92), `VERBOSE` is
false and `MAXITR` unbounded. DESIGN CHOICE for the last three, which R8 leaves without a default; unsafe
(notes/assumptions/3.md). -/
def Params.defaults (banks : List BankEntry) (harts : List HartEntry) : Params where
  banks := banks
  harts := harts
  allowedFlags := .listed [0x5#32, 0x6#32]
  unclassifiedPolicy := .refuse
  enforcePermissions := true
  faultScope := .terminateSimulation
  fetchAlignCheck := true
  elfCheckMagic := true
  verbose := false
  driver := .roundRobin
  maxitr := none

/-- The two banks of the source's scenario (spec/95_test_vectors.md W8). DESIGN CHOICE, unsafe
(notes/assumptions/2.md): the topology is an input without a default. -/
def Params.scenarioBanks : List BankEntry :=
  [ { name := "ROM", base := 0x0#32, size := 0x1000#32,
      perm := { read := true, write := false, execute := true } },
    { name := "RAM", base := 0x1000#32, size := 0x1000#32,
      perm := { read := true, write := true, execute := false } } ]

/-- The configuration `State.reset` stands for: the defaults over the topology of scenario W8, with hart 0 taking
the image's entry point as its reset address (D8). DESIGN CHOICE, unsafe (notes/assumptions/2.md). -/
def Params.scenario : Params :=
  Params.defaults Params.scenarioBanks [{ id := 0, resetAddr := none }]

/-- `TRACE_FORMAT`, the numeric rendering of the hart id in a trace line (R116, D25): left open, no body. -/
opaque Config.traceId : Nat → String

/-- `TRACE_FORMAT`, the numeric rendering of the fetch address in a trace line (R116, D25): left open, no body. -/
opaque Config.tracePc : Word → String

/-- `TRACE_FORMAT`, the numeric rendering of the fetched word in a trace line (R116, D25): left open, no body. -/
opaque Config.traceWord : Word → String

end Sys2Proof
end

