-- ==== Sys2Proof/Machine/State.lean ====
section
/-! DEFINITION. The state of the block (spec/10_state.md R11 to R34), its fault kinds (spec/60_exceptions.md R99) and
the reasons a step stops. -/

namespace Sys2Proof.Machine

/-- A memory bank (R12): its topology entry, constant for its lifetime (R14), and its backing bytes. The byte at
address `a` is `backing_bytes[a - base]` (R13); the bytes are held as (address, byte) cells, addresses strictly
rising, no cell holding `0x00`, which is what an unlisted byte reads as (R15). -/
structure Bank extends BankEntry where
  cells : List Host.Cell
deriving DecidableEq, Repr

/-- The bank collection, in topology order (R16). -/
abbrev Memory := List Bank

/-- The register file of a hart (R17): `x1` to `x31`. `x0` has no storage. -/
structure RegisterFile where
  x : Vector Word 31
deriving DecidableEq, Repr

/-- A hart (R23). -/
structure Hart where
  id        : Nat
  pc        : Word
  resetAddr : Word
  regs      : RegisterFile
  ir        : Word
  halted    : Bool
deriving DecidableEq, Repr

/-- The kinds of access a permission flag is checked for (R43). -/
inductive AccessKind
  | fetch
  | load
  | store
deriving DecidableEq, Repr

/-- The access widths (R50). -/
inductive Width
  | byte
  | half
  | word
deriving DecidableEq, Repr

/-- The reasons of a `FormatError` (R99, R88, R91). -/
inductive FormatReason
  | tooShort
  | badMagic
  | wrongClass
  | wrongEndianness
  | noSegments
  | badSegmentTable
  | truncatedSegment
deriving DecidableEq, Repr

/-- The reasons of a `ConfigError`: the conditions of decision D10 (R99, R105). DESIGN CHOICE: their names
(notes/assumptions/19.md). -/
inductive ConfigReason
  | bankBeyondSpace
  | duplicateHartId
deriving DecidableEq, Repr

/-- The faults of the hardware with the information each records (R99). -/
inductive FaultKind
  | fetchOutOfBounds (pc : Word)
  | outOfBounds (address : Nat)
  | permissionDenied (address : Word) (kind : AccessKind)
  | misalignedFetch (pc : Word)
  | formatError (reason : FormatReason)
  | configError (reason : ConfigReason)
deriving DecidableEq, Repr

/-- Who raised a fault (R101): a hart, by its id, or the host. -/
inductive Agent
  | hart (id : Nat)
  | host
deriving DecidableEq, Repr

/-- A fault record `{ code, info, agent }` (R101); the code is `FaultKind.code` of the kind. -/
structure FaultRecord where
  kind  : FaultKind
  agent : Agent
deriving DecidableEq, Repr

/-- One trace line `core[<id>] fetch [<pc>]:<instruction>`, not rendered (R116). -/
structure TraceLine where
  id          : Nat
  pc          : Word
  instruction : Word
deriving DecidableEq, Repr

/-- What the machine shows the host: a trace line (R116), or the byte of an observation read (R48). -/
inductive Output
  | trace (line : TraceLine)
  | byte (address : Nat) (value : Byte)
deriving DecidableEq, Repr

/-- A step the outside world asks for (R6, R83). Harts are named by their position in topology order. -/
inductive Event
  /-- What the machine does by itself: the bring-up step that is due, else the driver's next tick. -/
  | auto
  /-- One tick of hart `k` (R68). -/
  | tick (k : Nat)
  /-- The host's halt command (R80). -/
  | halt (k : Nat)
  /-- The host's `reset()`, with an optional new reset address (R120). -/
  | reset (k : Nat) (address : Option Word)
  /-- A host byte write (R48). -/
  | writeByte (address : Nat) (value : Byte)
  /-- A host observation read (R48). -/
  | readByte (address : Nat)
deriving DecidableEq, Repr

/-- How far the bring-up of R122 has come: the step that is due, with what it needs, or `running`. -/
inductive Phase
  | build (image : List Byte)
  | load (image : List Byte)
  | construct (entry : Word)
  | running
deriving DecidableEq, Repr

/-- The state of the system (spec/10_state.md: banks, harts, faults, refused), the configuration it runs under, and
the model's own fields `phase`, `schedule`, `round`, `current`, `ticksLeft` and `output`
(notes/assumptions/1.md, 4.md, 7.md, 8.md, 9.md, 11.md). -/
structure State where
  /-- The parameters (R8, R11); no step changes them. -/
  params    : Params
  /-- The bank collection (R16). -/
  banks     : Memory
  /-- The harts, in topology order (R23, R115). -/
  harts     : List Hart
  /-- The fault list (R101), oldest first. -/
  faults    : List FaultRecord
  /-- The refusal mark (R107). -/
  refused   : Bool
  /-- The bring-up step that is due (R122). -/
  phase     : Phase
  /-- The pending events, next first (R83). -/
  schedule  : List Event
  /-- The harts the driver has still to tick in its round, by position (R84). -/
  round     : List Nat
  /-- The position of the hart whose tick is in progress. -/
  current   : Nat
  /-- What is left of `MAXITR` (R81, R84); `none` is unbounded. -/
  ticksLeft : Option Nat
  /-- What the machine has shown the host (R48, R116), oldest first. -/
  output    : List Output
deriving DecidableEq, Repr

/-- Why a driver stops without a fault (R84). -/
inductive StopReason
  | allHalted
  | maxitrReached
deriving DecidableEq, Repr

/-- Why a step has no next state although the machine did not refuse. -/
inductive Fault
  /-- A fault that ends the simulation (R103): raised by a hart's tick under `terminate_simulation`, or by the host;
  `final` is the state it leaves, with the fault recorded (R100, R101). Safe: the hardware stops there too. -/
  | raised (record : FaultRecord) (final : State)
  /-- A step asked for after the simulation has ended (R103, R107: no agent has a further step). Safe. -/
  | simulationEnded
  /-- Nothing is scheduled and the driver has stopped (R84): every hart is halted, or `MAXITR` is used up. No fault
  of the hardware. Safe: there is no step to take. -/
  | driverStopped (reason : StopReason)
deriving DecidableEq, Repr

/-- Why the model has no meaning for a step. -/
inductive Refusal
  /-- An instruction without a meaning in `exec`; no arm answers so. Safe. -/
  | notModelled (mnemonic : String)
  /-- The spec's own refusal (R78, R107), raised by `UNCLASSIFIED` under `UNCLASSIFIED_POLICY = refuse`; `final` is
  the state it leaves, with the refusal mark set. Safe: the spec gives the word no meaning there. -/
  | unclassifiedWord (w : Word) (fetchAddress : Word) (final : State)
  /-- A scheduled event, or an access, for a hart the topology does not have. Safe: there is no such agent. -/
  | noSuchHart (k : Nat)
deriving DecidableEq, Repr

/-- The outcome of a step. -/
abbrev Result := Host.Outcome State Fault Refusal

/-- A freshly created bank: every byte `0x00` (R15). -/
def Bank.fresh (e : BankEntry) : Bank := { e with cells := [] }

/-- The register file with every register 0 (R34). -/
def RegisterFile.zero : RegisterFile := ⟨Vector.replicate 31 0#32⟩

/-- A constructed hart (R119); `IR` is `0x00000000` by decision D14. -/
def Hart.construct (id : Nat) (r : Word) : Hart where
  id := id
  pc := r
  resetAddr := r
  regs := RegisterFile.zero
  ir := 0x00000000#32
  halted := false

/-- The system right after bring-up (R34, R119, R122) in the configuration `Params.scenario`, with entry point `0x0`
(W8) and no image byte placed. The topology and entry point are DESIGN CHOICE, unsafe (notes/assumptions/2.md, 4.md). -/
def State.reset : State where
  params := Params.scenario
  banks := Params.scenario.banks.map Bank.fresh
  harts := Params.scenario.harts.map fun h => Hart.construct h.id (h.resetAddr.getD 0x0#32)
  faults := []
  refused := false
  phase := .running
  schedule := []
  round := []
  current := 0
  ticksLeft := Params.scenario.maxitr
  output := []

end Sys2Proof.Machine
end

