-- ==== Sys2Proof/Machine/Operands.lean ====
section
/-! DEFINITION. The register-file operations (spec/10_state.md R18 to R22) and the writeback primitives over them
(spec/40_pipeline.md R76). No instruction of the block names a register (R62). -/

namespace Sys2Proof.Machine

/-- `get(i)` (R19): register 0 reads 0. -/
def RegisterFile.get (r : RegisterFile) (i : Fin 32) : Word :=
  if i.val = 0 then 0#32 else (r.x[i.val - 1]?).getD 0#32

/-- `set(i, v)` (R20): a write to register 0 is discarded. -/
def RegisterFile.set (r : RegisterFile) (i : Fin 32) (v : Word) : RegisterFile :=
  if i.val = 0 then r else ⟨r.x.setIfInBounds (i.val - 1) v⟩

/-- `clear()` (R21). -/
def RegisterFile.clear (_r : RegisterFile) : RegisterFile := RegisterFile.zero

/-- Writeback of a register result, through `set` (R76). -/
def Hart.writeRegister (h : Hart) (i : Fin 32) (v : Word) : Hart :=
  { h with regs := h.regs.set i v }

/-- Writeback of a control-flow target over `pc` (R76). -/
def Hart.writePc (h : Hart) (target : Word) : Hart :=
  { h with pc := target }

end Sys2Proof.Machine
end

