-- ==== Sys2Proof/Machine/Flags.lean ====
section
/-! DEFINITION. The one flag of the block, `halted` (spec/10_state.md R25, R31), and what sets and clears it:
the halt transition (spec/40_pipeline.md R79, R80) and `reset()` (spec/70_reset_and_hazards.md R120). -/

namespace Sys2Proof.Machine

/-- A hart is `Running` when `halted == false` (R25). -/
def Hart.running (h : Hart) : Bool := !h.halted

/-- The transition into `Halted` (R80): nothing but the flag changes. -/
def Hart.halt (h : Hart) : Hart := { h with halted := true }

/-- `reset()` of a hart, with an optional new reset address (R120): the only way out of `Halted`. -/
def Hart.reset (r : Option Word) (h : Hart) : Hart :=
  { h with
    resetAddr := r.getD h.resetAddr
    regs := h.regs.clear
    pc := r.getD h.resetAddr
    ir := 0x00000000#32
    halted := false }

end Sys2Proof.Machine
end

