-- ==== Sys2Proof/Machine/Ops.lean ====
section
/-! DEFINITION. The named operations over memory and state: the address decoder and the bank accessors
(spec/20_memory.md R35 to R50), the named state updates, and raising a fault or a refusal
(spec/60_exceptions.md R99 to R107). -/

namespace Sys2Proof.Machine

/-! ## The bytes of one bank -/

/-- The byte listed at an address; `0x00` where none is listed (R15). -/
def Cells.read : List Host.Cell → Nat → Byte
  | [], _ => 0#8
  | c :: cs, a => if c.1 = a then c.2 else Cells.read cs a

/-- List byte `v` at address `a`, keeping the addresses rising and listing no `0x00`. -/
def Cells.write : List Host.Cell → Nat → Byte → List Host.Cell
  | [], a, v => if v = 0#8 then [] else [(a, v)]
  | c :: cs, a, v =>
    if a < c.1 then (if v = 0#8 then c :: cs else (a, v) :: c :: cs)
    else if a = c.1 then (if v = 0#8 then cs else (a, v) :: cs)
    else c :: Cells.write cs a v

/-- Every listed address is at least `lo`, addresses rise strictly, and no cell lists `0x00`. -/
def Cells.wfFrom : Nat → List Host.Cell → Bool
  | _, [] => true
  | lo, c :: cs => decide (lo ≤ c.1) && c.2 != 0#8 && Cells.wfFrom (c.1 + 1) cs

/-- The first address past a bank, without wrap-around (R13). -/
def Bank.limit (b : Bank) : Nat := b.base.toNat + b.size.toNat

/-- Bank `b` claims address `a` (R13). -/
def Bank.claims (b : Bank) (a : Nat) : Bool :=
  decide (b.base.toNat ≤ a) && decide (a < b.limit)

/-- The byte of a bank at an address it claims (R13). -/
def Bank.byteAt (b : Bank) (a : Nat) : Byte := Cells.read b.cells a

/-- Store a byte in a bank at an address it claims (R13). -/
def Bank.setByte (b : Bank) (a : Nat) (v : Byte) : Bank := { b with cells := Cells.write b.cells a v }

/-- The canonical form of a bank's bytes: addresses strictly rising, no `0x00` listed, every address claimed (R12). -/
def Bank.wf (b : Bank) : Bool :=
  Cells.wfFrom b.base.toNat b.cells && b.cells.all fun c => decide (c.1 < b.limit)

/-- The canonical form of the bank collection. -/
def Memory.wf (m : Memory) : Bool := m.all Bank.wf

/-! ## Bank accessors -/

/-- The number of bytes of an access (R50). -/
def Width.bytes : Width → Nat
  | .byte => 1
  | .half => 2
  | .word => 4

/-- `n` bytes from address `a` up, each bounds-checked, failing at the first one out of range (R39). -/
def Bank.readBytes (b : Bank) : Nat → Nat → Except FaultKind (List Byte)
  | _, 0 => .ok []
  | a, n + 1 =>
    if b.claims a then
      match Bank.readBytes b (a + 1) n with
      | .ok vs => .ok (b.byteAt a :: vs)
      | .error f => .error f
    else .error (.outOfBounds a)

/-- `BankRead(b, a, n)` (R39): the bytes assembled little-endian, zero-extended to a word. -/
def Bank.read (b : Bank) (a : Nat) (n : Width) : Except FaultKind Word :=
  match b.readBytes a n.bytes with
  | .ok vs => .ok (Word.ofBytes vs)
  | .error f => .error f

/-- Bytes stored from address `a` up, each bounds-checked; at the first one out of range the store stops, and the
bytes below stay written (R40, decision D17). -/
def Bank.writeBytes (b : Bank) : Nat → List Byte → Bank × Option FaultKind
  | _, [] => (b, none)
  | a, v :: vs =>
    if b.claims a then Bank.writeBytes (b.setByte a v) (a + 1) vs
    else (b, some (.outOfBounds a))

/-- `BankWrite(b, a, n, v)` (R40): the low `8n` bits of `v`, little-endian. -/
def Bank.write (b : Bank) (a : Nat) (n : Width) (v : Word) : Bank × Option FaultKind :=
  b.writeBytes a (Word.toBytes n.bytes v)

/-! ## The address decoder and the collection-level accessors -/

/-- `Decode(a)`: the first bank that claims the address (R35). -/
def Memory.select (m : Memory) (a : Nat) : Option Bank := m.find? fun b => b.claims a

/-- The collection with the bank `Decode(a)` selects replaced. -/
def Memory.replace : Memory → Nat → Bank → Memory
  | [], _, _ => []
  | c :: m, a, b => if c.claims a then b :: m else c :: Memory.replace m a b

/-- The flag an access kind needs (R43). -/
def AccessKind.allowed : AccessKind → Permissions → Bool
  | .fetch, p => p.execute
  | .load, p => p.read
  | .store, p => p.write

/-- What an access raises when no bank claims its address (R46, R71, conflict C4). -/
def AccessKind.absent : AccessKind → Word → FaultKind
  | .fetch, a => .fetchOutOfBounds a
  | .load, a => .outOfBounds a.toNat
  | .store, a => .outOfBounds a.toNat

/-- The bank a hart's access of a kind at an address uses: `Decode(a)`, then the permission check, once and before
any byte (R43, R46, R47). -/
def Memory.route (p : Params) (m : Memory) (a : Word) (k : AccessKind) : Except FaultKind Bank :=
  match m.select a.toNat with
  | none => .error (k.absent a)
  | some b =>
    if p.enforcePermissions && !k.allowed b.perm then .error (.permissionDenied a k) else .ok b

/-- `MemRead(a, n, kind)` (R46). -/
def Memory.read (p : Params) (m : Memory) (a : Word) (n : Width) (k : AccessKind) : Except FaultKind Word :=
  match m.route p a k with
  | .error f => .error f
  | .ok b => b.read a.toNat n

/-- `MemWrite(a, n, v)` (R47): the collection as it is left, and the fault if one is raised. -/
def Memory.write (p : Params) (m : Memory) (a : Word) (n : Width) (v : Word) : Memory × Option FaultKind :=
  match m.route p a .store with
  | .error f => (m, some f)
  | .ok b => (m.replace a.toNat (b.write a.toNat n v).1, (b.write a.toNat n v).2)

/-- `HostReadByte(a)` (R48): routed by its own address, no permission check (R44). -/
def Memory.hostRead (m : Memory) (a : Nat) : Except FaultKind Byte :=
  match m.select a with
  | none => .error (.outOfBounds a)
  | some b => .ok (b.byteAt a)

/-- `HostWriteByte(a, v)` (R48): routed by its own address, no permission check (R44). -/
def Memory.hostWrite (m : Memory) (a : Nat) (v : Byte) : Except FaultKind Memory :=
  match m.select a with
  | none => .error (.outOfBounds a)
  | some b => .ok (m.replace a (b.setByte a v))

/-! ## Named state updates -/

/-- Replace the bank collection. -/
def State.setBanks (s : State) (m : Memory) : State := { s with banks := m }

/-- Replace all harts. -/
def State.setHarts (s : State) (hs : List Hart) : State := { s with harts := hs }

/-- Replace hart `k`. -/
def State.setHart (s : State) (k : Nat) (h : Hart) : State := { s with harts := s.harts.set k h }

/-- Append a fault record (R101). -/
def State.record (s : State) (r : FaultRecord) : State := { s with faults := s.faults ++ [r] }

/-- Set the refusal mark (R107). -/
def State.markRefused (s : State) : State := { s with refused := true }

/-- Move the bring-up on (R122). -/
def State.setPhase (s : State) (p : Phase) : State := { s with phase := p }

/-- Replace the pending events. -/
def State.setSchedule (s : State) (es : List Event) : State := { s with schedule := es }

/-- Replace what is left of the driver's round. -/
def State.setRound (s : State) (r : List Nat) : State := { s with round := r }

/-- Say whose tick is in progress. -/
def State.setCurrent (s : State) (k : Nat) : State := { s with current := k }

/-- Replace what is left of `MAXITR`. -/
def State.setTicksLeft (s : State) (n : Option Nat) : State := { s with ticksLeft := n }

/-- Show the host something more. -/
def State.emit (s : State) (o : List Output) : State := { s with output := s.output ++ o }

/-! ## Faults and refusals -/

/-- The codes of R99 (decision D26). -/
def FaultKind.code : FaultKind → Nat
  | .fetchOutOfBounds _ => 1
  | .outOfBounds _ => 2
  | .permissionDenied _ _ => 3
  | .misalignedFetch _ => 4
  | .formatError _ => 5
  | .configError _ => 6

/-- A recorded fault has ended the simulation (R103): under `terminate_simulation` any, under `halt_hart` a host's. -/
def FaultRecord.terminates (p : Params) (r : FaultRecord) : Bool :=
  decide (p.faultScope = .terminateSimulation) || decide (r.agent = .host)

/-- No agent has a further step: a fault has ended the simulation (R103) or a refusal is marked (R107). -/
def State.ended (s : State) : Bool :=
  s.refused || s.faults.any fun r => r.terminates s.params

/-- `raise F(info)` by the host (R100, R103): the fault is recorded and the simulation ends under both scopes. -/
def raiseHost (f : FaultKind) (s : State) : Result :=
  .fault (.raised ⟨f, .host⟩ (s.record ⟨f, .host⟩))

/-- `raise F(info)` in the tick of hart `k` (R100, R103): the fault is recorded; then the simulation ends, or that
hart alone is halted, its `pc` and `IR` as the step left them. -/
def raise (k : Nat) (f : FaultKind) (s : State) : Result :=
  match s.harts[k]? with
  | none => .refused (.noSuchHart k)
  | some h =>
    match s.params.faultScope with
    | .terminateSimulation => .fault (.raised ⟨f, .hart h.id⟩ (s.record ⟨f, .hart h.id⟩))
    | .haltHart => .next ((s.record ⟨f, .hart h.id⟩).setHart k h.halt)

/-- `refuse(UnclassifiedWord(w, a))` (R107): the refusal mark is set. -/
def refuse (w a : Word) (s : State) : Result :=
  .refused (.unclassifiedWord w a s.markRefused)

/-- The contract of an extension-point memory stage for a load by hart `k` (R75): `MemRead`, its fault raised, the
value handed on. No instruction of the block loads (R47). -/
def loadStage (k : Nat) (a : Word) (n : Width) (use : Word → State → Result) (s : State) : Result :=
  match s.banks.read s.params a n .load with
  | .ok v => use v s
  | .error f => raise k f s

/-- The contract of an extension-point memory stage for a store by hart `k` (R75): `MemWrite`, whose lower bytes stay
written when it faults (R100). No instruction of the block stores (R47). -/
def storeStage (k : Nat) (a : Word) (n : Width) (v : Word) (s : State) : Result :=
  match s.banks.write s.params a n v with
  | (m, none) => .next (s.setBanks m)
  | (m, some f) => raise k f (s.setBanks m)

/-! ## Stages and outcomes -/

/-- A stage that does nothing (R77). -/
def skip (s : State) : Result := .next s

/-- One stage after another (R68): a fault or a refusal ends the tick. -/
def Result.andThen (r : Result) (f : State → Result) : Result :=
  match r with
  | .next s => f s
  | .fault e => .fault e
  | .refused e => .refused e

/-- The next state of an outcome, if it is one. -/
def Result.next? : Result → Option State
  | .next s => some s
  | _ => none

/-- The fault of an outcome, if it is one. -/
def Result.fault? : Result → Option Fault
  | .fault f => some f
  | _ => none

/-- The refusal of an outcome, if it is one. -/
def Result.refusal? : Result → Option Refusal
  | .refused r => some r
  | _ => none

end Sys2Proof.Machine
end

