-- ==== Sys2Proof/Machine/Loader.lean ====
section
/-! DEFINITION. The image loader (spec/41_image_loader.md R85 to R98). The ELF32 layout is the spec's, supplied there
from general knowledge (G4 to G6). UNVERIFIED, unsafe: notes/assumptions/14.md. -/

namespace Sys2Proof.Machine

/-- Byte `o` of the image; the checks of R88 and R91 keep every read of the loader inside the file. -/
def imageByte (img : List Byte) (o : Nat) : Byte := img.getD o 0#8

/-- `le16(img, o)` (R98): the two bytes at `o`, little-endian. -/
def le16 (img : List Byte) (o : Nat) : Nat :=
  (Word.ofBytes [imageByte img o, imageByte img (o + 1)]).toNat

/-- The four bytes at `o`, little-endian, as a word. -/
def le32Word (img : List Byte) (o : Nat) : Word :=
  Word.ofBytes [imageByte img o, imageByte img (o + 1), imageByte img (o + 2), imageByte img (o + 3)]

/-- `le32(img, o)` (R98), as an unbounded natural. -/
def le32 (img : List Byte) (o : Nat) : Nat := (le32Word img o).toNat

/-- `e_entry` (R86). -/
def elfEntry (img : List Byte) : Word := le32Word img 0x18

/-- `e_phoff` (R86). -/
def elfPhoff (img : List Byte) : Nat := le32 img 0x1C

/-- `e_phentsize` (R86). -/
def elfPhentsize (img : List Byte) : Nat := le16 img 0x2A

/-- `e_phnum` (R86). -/
def elfPhnum (img : List Byte) : Nat := le16 img 0x2C

/-- `CheckHeader(img)` (R88): the first check that fails, if any. -/
def checkHeader (p : Params) (img : List Byte) : Option FormatReason :=
  if img.length < 52 then some .tooShort
  else if p.elfCheckMagic && decide (img.take 4 ≠ [0x7F#8, 0x45#8, 0x4C#8, 0x46#8]) then some .badMagic
  else if imageByte img 4 ≠ 1#8 then some .wrongClass
  else if imageByte img 5 ≠ 1#8 then some .wrongEndianness
  else if elfPhnum img = 0 then some .noSegments
  else if elfPhentsize img < 32 then some .badSegmentTable
  else if img.length < elfPhoff img + (elfPhnum img - 1) * elfPhentsize img + 32 then some .badSegmentTable
  else none

/-- The fields of a program header the loader reads (R87): the on-disk type, and the segment descriptor
`{ p_paddr, p_filesz, p_flags }` with the file offset its bytes come from (R90). -/
structure ProgramHeader where
  type   : Nat
  offset : Nat
  paddr  : Nat
  filesz : Nat
  flags  : Word
deriving DecidableEq, Repr

/-- The program header at file offset `o` (R87). -/
def readProgramHeader (img : List Byte) (o : Nat) : ProgramHeader where
  type := le32 img o
  offset := le32 img (o + 0x04)
  paddr := le32 img (o + 0x0C)
  filesz := le32 img (o + 0x10)
  flags := le32Word img (o + 0x18)

/-- The program headers in file order: header `k` lies at `e_phoff + k * e_phentsize` (R87). -/
def programHeaders (img : List Byte) : List ProgramHeader :=
  (List.range (elfPhnum img)).map fun k => readProgramHeader img (elfPhoff img + k * elfPhentsize img)

/-- Membership in the allow-list: equality of the whole flag word (R91, R92). -/
def AllowList.allows : AllowList → Word → Bool
  | .listed fs, w => fs.contains w
  | .everything, _ => true

/-- A segment is eligible (R91): `p_type == 1` (`PT_LOAD`) and its flag word is allowed. -/
def ProgramHeader.eligible (p : Params) (h : ProgramHeader) : Bool :=
  decide (h.type = 1) && AllowList.allows p.allowedFlags h.flags

/-- An eligible segment's bytes are not all in a file of `len` bytes (R91). -/
def ProgramHeader.truncated (len : Nat) (h : ProgramHeader) : Bool := decide (len < h.offset + h.filesz)

/-- The eligible segments in file order (R91). -/
def eligibleSegments (p : Params) (img : List Byte) : List ProgramHeader :=
  (programHeaders img).filter fun h => h.eligible p

/-- Every check made before the first byte is stored (R88, R89, R91): the first that fails, if any. -/
def checkImage (p : Params) (img : List Byte) : Option FormatReason :=
  match checkHeader p img with
  | some r => some r
  | none =>
    if (eligibleSegments p img).any fun h => h.truncated img.length then some .truncatedSegment else none

/-- The bytes of a segment: `p_filesz` bytes from `p_offset` (R93, R96). -/
def ProgramHeader.bytes (img : List Byte) (h : ProgramHeader) : List Byte := (img.drop h.offset).take h.filesz

/-- Place bytes from address `a` up, each routed on its own (R93): the collection as it is left, and the fault that
stopped the placement. An address at or past `2^32` is out of bounds. -/
def placeBytes : Nat → List Byte → Memory → Memory × Option FaultKind
  | _, [], m => (m, none)
  | a, v :: vs, m =>
    if 2 ^ 32 ≤ a then (m, some (.outOfBounds a))
    else
      match m.hostWrite a v with
      | .error f => (m, some f)
      | .ok m' => placeBytes (a + 1) vs m'

/-- Place segments in order (R93); what was placed before a fault stays written (R95). -/
def placeSegments (img : List Byte) : List ProgramHeader → Memory → Memory × Option FaultKind
  | [], m => (m, none)
  | h :: hs, m =>
    match placeBytes h.paddr (h.bytes img) m with
    | (m', none) => placeSegments img hs m'
    | (m', some f) => (m', some f)

/-- `load(img, ALLOWED_FLAGS)` (R98): the collection as the loader leaves it, and the entry point or the fault. -/
def load (p : Params) (img : List Byte) (m : Memory) : Memory × Except FaultKind Word :=
  match checkImage p img with
  | some r => (m, .error (.formatError r))
  | none =>
    match placeSegments img (eligibleSegments p img) m with
    | (m', none) => (m', .ok (elfEntry img))
    | (m', some f) => (m', .error f)

end Sys2Proof.Machine
end

