-- ==== Sys2Proof/Machine/HostSteps.lean ====
section
/-! DEFINITION. The host's steps (spec/00_scope.md R6): the bring-up of spec/70_reset_and_hazards.md R122, the halt
command (spec/40_pipeline.md R80), `reset()` (spec/70_reset_and_hazards.md R120), and the byte accessors
(spec/20_memory.md R48). -/

namespace Sys2Proof.Machine

/-! ## Bring-up -/

/-- The first well-formedness condition of the topology that fails, if any (R105, decision D10): every bank ends at
or below `2^32`, and hart ids are pairwise distinct. DESIGN CHOICE, unsafe (notes/assumptions/19.md): the names of the
reasons, and that `bankBeyondSpace` is the one reported where both conditions fail; the spec gives neither names nor an
order. -/
def Params.topologyProblem (p : Params) : Option ConfigReason :=
  if p.banks.any fun e => decide (2 ^ 32 < e.base.toNat + e.size.toNat) then some .bankBeyondSpace
  else if (p.harts.map (·.id)).Nodup then none
  else some .duplicateHartId

/-- Check the topology and create the zeroed banks (R122, R15, R105). -/
def buildBanks (img : List Byte) (s : State) : Result :=
  match Params.topologyProblem s.params with
  | some r => raiseHost (.configError r) s
  | none => .next ((s.setBanks (s.params.banks.map Bank.fresh)).setPhase (.load img))

/-- Run the loader (R122, R98). -/
def loadImage (img : List Byte) (s : State) : Result :=
  match load s.params img s.banks with
  | (m, .ok entry) => .next ((s.setBanks m).setPhase (.construct entry))
  | (m, .error f) => raiseHost f (s.setBanks m)

/-- The hart of a topology entry, constructed at `RESET_ADDR(id)`, by default the image's entry point (R119, R122). -/
def HartEntry.build (entry : Word) (h : HartEntry) : Hart := Hart.construct h.id (h.resetAddr.getD entry)

/-- Construct one hart per id (R122) and let the machine run. -/
def constructHarts (entry : Word) (s : State) : Result :=
  .next ((((s.setHarts (s.params.harts.map (HartEntry.build entry))).setRound []).setTicksLeft
    s.params.maxitr).setPhase .running)

/-- The system before its bring-up, with the image file's bytes (R122). -/
def State.powerOn (p : Params) (img : List Byte) : State where
  params := p
  banks := []
  harts := []
  faults := []
  refused := false
  phase := .build img
  schedule := []
  round := []
  current := 0
  ticksLeft := p.maxitr
  output := []

/-! ## Steps between ticks -/

/-- Change hart `k`, if there is one. -/
def updateHart (k : Nat) (f : Hart → Hart) (s : State) : Result :=
  match s.harts[k]? with
  | none => .refused (.noSuchHart k)
  | some h => .next (s.setHart k (f h))

/-- `HaltCmd(h)` (R80). -/
def haltCommand (k : Nat) (s : State) : Result := updateHart k Hart.halt s

/-- `reset(h, r?)` (R120). -/
def resetCommand (k : Nat) (r : Option Word) (s : State) : Result := updateHart k (Hart.reset r) s

/-- `HostWriteByte(a, v)` (R48). -/
def hostWriteStep (a : Nat) (v : Byte) (s : State) : Result :=
  match s.banks.hostWrite a v with
  | .ok m => .next (s.setBanks m)
  | .error f => raiseHost f s

/-- `HostReadByte(a)` (R48): the byte is shown to the host. -/
def hostReadStep (a : Nat) (s : State) : Result :=
  match s.banks.hostRead a with
  | .ok v => .next (s.emit [.byte a v])
  | .error f => raiseHost f s

end Sys2Proof.Machine
end

