-- ==== Sys2Proof/Machine/Nop.lean ====
section
/-! DEFINITION. `NOP` (spec/40_pipeline.md R77): its execute, memory-access and writeback stages. -/

namespace Sys2Proof.Machine

/-- `Execute(h, Nop) = skip` (R77). -/
def executeNop (s : State) : Result := skip s

/-- `MemoryAccess(h, Nop) = skip` (R77). -/
def memoryAccessNop (s : State) : Result := skip s

/-- `Writeback(h, Nop) = skip` (R77). -/
def writebackNop (s : State) : Result := skip s

/-- `NOP` after its fetch: the three stages in order (R68, R77). -/
def execNop (s : State) : Result :=
  ((executeNop s).andThen memoryAccessNop).andThen writebackNop

end Sys2Proof.Machine
end

