-- ==== Sys2Proof/Machine/Unclassified.lean ====
section
/-! DEFINITION. `UNCLASSIFIED` (spec/40_pipeline.md R78): its execute, memory-access and writeback stages under both
settings of `UNCLASSIFIED_POLICY`. -/

namespace Sys2Proof.Machine

/-- `Execute(h, Unclassified(w))` (R78). Under `refuse` the reason names the word and its fetch address, `pc - 4`
of the hart whose tick is in progress; under `scaffold_noop` nothing happens. -/
def executeUnclassified (w : Word) (s : State) : Result :=
  match s.params.unclassifiedPolicy with
  | .refuse =>
    match s.harts[s.current]? with
    | none => .refused (.noSuchHart s.current)
    | some h => refuse w (h.pc - 4#32) s
  | .scaffoldNoop => skip s

/-- `MemoryAccess` of an unclassified word: skipped (R78). -/
def memoryAccessUnclassified (s : State) : Result := skip s

/-- `Writeback` of an unclassified word: skipped (R78). -/
def writebackUnclassified (s : State) : Result := skip s

/-- `UNCLASSIFIED` after its fetch: the three stages in order (R68, R78). -/
def execUnclassified (w : Word) (s : State) : Result :=
  ((executeUnclassified w s).andThen memoryAccessUnclassified).andThen writebackUnclassified

end Sys2Proof.Machine
end

