-- ==== Sys2Proof/Machine/Dispatch.lean ====
section
/-! DEFINITION. The stages after fetch and decode, one arm per operation descriptor (spec/40_pipeline.md R74 to R78). -/

namespace Sys2Proof.Machine

def exec (i : Instr) (s : State) : Host.Outcome State Fault Refusal :=
  match i with
  | .nop => Sys2Proof.Machine.execNop s
  | .unclassified w => Sys2Proof.Machine.execUnclassified w s

end Sys2Proof.Machine
end

