-- ==== Sys2Proof/Machine/Fetch.lean ====
section
/-! DEFINITION. The fetch stage (spec/40_pipeline.md R69 to R72) and its trace line (spec/60_exceptions.md R116). -/

namespace Sys2Proof.Machine

/-- The trace line as text: the shape is R116's, the numerals are `TRACE_FORMAT`'s, left open (D25). -/
def TraceLine.render (t : TraceLine) : String :=
  "core[" ++ Config.traceId t.id ++ "] fetch [" ++ Config.tracePc t.pc ++ "]:" ++ Config.traceWord t.instruction

/-- What a successful fetch of word `w` from memory emits (R71, R116). -/
def traceOf (p : Params) (h : Hart) (w : Word) : List Output :=
  if p.verbose then [.trace { id := h.id, pc := h.pc, instruction := w }] else []

/-- The word a running hart's fetch reads: the alignment check (R70), then `MemRead` (R71, R46). -/
def fetchWord (p : Params) (m : Memory) (h : Hart) : Except FaultKind Word :=
  if p.fetchAlignCheck && decide (h.pc.toNat % 4 ≠ 0) then .error (.misalignedFetch h.pc)
  else m.read p h.pc .word .fetch

/-- The hart after its fetch of word `w`: `IR` written, `pc` advanced by 4 modulo 2^32 (R71, R28). -/
def Hart.fetched (h : Hart) (w : Word) : Hart := { h with ir := w, pc := h.pc + 4#32 }

/-- The hart after the fetch of a halted hart: the no-op is synthesized, `pc` stays (R69). -/
def Hart.fetchedHalted (h : Hart) : Hart := { h with ir := nopWord }

/-- `Fetch(h)` (R69 to R72): the hart as the fetch leaves it and the lines it emits, or the fault it raises, with
nothing written. -/
def fetch (p : Params) (m : Memory) (h : Hart) : Except FaultKind (Hart × List Output) :=
  if h.halted then .ok (h.fetchedHalted, [])
  else
    match fetchWord p m h with
    | .error f => .error f
    | .ok w => .ok (h.fetched w, traceOf p h w)

end Sys2Proof.Machine
end

