-- ==== Sys2Proof/Machine/Tick.lean ====
section
/-! DEFINITION. One `tick()` of a hart (spec/40_pipeline.md R68) and the bounded run loop over it (R81). -/

namespace Sys2Proof.Machine

/-- The state after hart `k`'s fetch has left it as `h` and emitted `o`, hart `k`'s tick being in progress. -/
def State.afterFetch (s : State) (k : Nat) (h : Hart) (o : List Output) : State :=
  ((s.setHart k h).emit o).setCurrent k

/-- `tick(h)` of hart `k` (R68): fetch, decode, then execute, memory access and writeback. -/
def tick (k : Nat) (s : State) : Result :=
  match s.harts[k]? with
  | none => .refused (.noSuchHart k)
  | some h =>
    match fetch s.params s.banks h with
    | .error f => raise k f s
    | .ok (h', o) => exec (decode h'.ir) (s.afterFetch k h' o)

/-- Hart `k` is halted, or there is none. -/
def State.haltedAt (s : State) (k : Nat) : Bool :=
  match s.harts[k]? with
  | none => true
  | some h => h.halted

/-- `run()` of hart `k` (R81) cut at `n` ticks by whatever drives it (`MAXITR`, D29). -/
def runHart (k : Nat) : Nat → State → Result
  | 0, s => .next s
  | n + 1, s => if s.haltedAt k then .next s else (tick k s).andThen (runHart k n)

end Sys2Proof.Machine
end

