-- ==== Sys2Proof/Machine/Driver.lean ====
section
/-! DEFINITION. Which step comes next: the pending events (spec/40_pipeline.md R83), else the bring-up step that is
due (spec/70_reset_and_hazards.md R122), else a driver's tick (spec/40_pipeline.md R81, R84). -/

namespace Sys2Proof.Machine

/-- The harts that are not halted, by position, in topology order (R84). -/
def State.runningHarts (s : State) : List Nat :=
  (List.range s.harts.length).filter fun k => !s.haltedAt k

/-- What is left of the driver's round, harts halted meanwhile dropped from its front; a new round of every hart
that is not halted when nothing is left (R84). DESIGN CHOICE, unsafe (notes/assumptions/8.md): the run-to-completion
driver takes the harts in topology order too; R83 names no order for it, and R84 and D7 fix one for round-robin alone. -/
def State.nextRound (s : State) : List Nat :=
  match s.round.dropWhile s.haltedAt with
  | [] => s.runningHarts
  | k :: ks => k :: ks

/-- What the driver keeps of its round once it has ticked hart `k`: round-robin ticks each hart once a round (R84),
run-to-completion stays with its hart (R81, R83). -/
def Driver.after (d : Driver) (k : Nat) (rest : List Nat) : List Nat :=
  match d with
  | .roundRobin => rest
  | .runToCompletion => k :: rest

/-- The driver's bookkeeping before it ticks hart `k`: one of `MAXITR`'s ticks is used (R84, D29). -/
def State.countTick (s : State) (k : Nat) (rest : List Nat) : State :=
  (s.setRound (Driver.after s.params.driver k rest)).setTicksLeft (s.ticksLeft.map (· - 1))

/-- One tick of the driver, or its stop: `MAXITR` reached, or every hart halted (R84). DESIGN CHOICE, unsafe
(notes/assumptions/20.md): where both hold, `maxitrReached` is the stop reported; the spec gives the two no order. -/
def drive (s : State) : Result :=
  if s.ticksLeft = some 0 then .fault (.driverStopped .maxitrReached)
  else
    match s.nextRound with
    | [] => .fault (.driverStopped .allHalted)
    | k :: rest => tick k (s.countTick k rest)

/-- What the machine does by itself (R122, R84). -/
def proceed (s : State) : Result :=
  match s.phase with
  | .build img => buildBanks img s
  | .load img => loadImage img s
  | .construct entry => constructHarts entry s
  | .running => drive s

/-- One event (R6, R83). DESIGN CHOICE, unsafe (notes/assumptions/8.md): a tick asked for by an event is none of the
driver's, so it leaves `State.round` alone and the driver still ticks that hart in its round. -/
def perform (e : Event) (s : State) : Result :=
  match e with
  | .auto => proceed s
  | .tick k => tick k s
  | .halt k => haltCommand k s
  | .reset k r => resetCommand k r s
  | .writeByte a v => hostWriteStep a v s
  | .readByte a => hostReadStep a s

/-- One atomic step of the system (R83): none once it has ended (R103, R107). -/
def advance (s : State) : Result :=
  if s.ended then .fault .simulationEnded
  else
    match s.schedule with
    | [] => proceed s
    | e :: es => perform e (s.setSchedule es)

/-! ## Placing an instruction where the next step fetches it -/

/-- The hart that the machine, left to itself, ticks next. -/
def State.driverHart (s : State) : Option Nat :=
  if s.phase = .running ∧ s.ticksLeft ≠ some 0 then s.nextRound.head? else none

/-- The hart the next step ticks, if the next step is a tick. -/
def State.nextHart (s : State) : Option Nat :=
  match s.schedule with
  | [] => s.driverHart
  | .auto :: _ => s.driverHart
  | .tick k :: _ => some k
  | _ => none

/-- The bank collection with bytes stored in the bank that a hart's fetch at `pc` reads. -/
def Memory.placeAt (m : Memory) (pc : Word) (vs : List Byte) : Memory :=
  match m.select pc.toNat with
  | none => m
  | some b => m.replace pc.toNat (b.writeBytes pc.toNat vs).1

/-- The state with an instruction's bytes stored where the next step fetches its instruction; unchanged if the next
step is no tick, or if no bank claims the address. -/
def State.placeInstr (s : State) (vs : List Byte) : State :=
  match s.nextHart with
  | none => s
  | some k =>
    match s.harts[k]? with
    | none => s
    | some h => s.setBanks (s.banks.placeAt h.pc vs)

end Sys2Proof.Machine
end

