-- ==== Sys2Proof/Machine/Step.lean ====
section
/-! DEFINITION. One step of the system, and an instruction placed where the next step fetches it. -/

namespace Sys2Proof.Machine

/-- One atomic step (spec/40_pipeline.md R83). -/
def step (s : State) : Host.Outcome State Fault Refusal := advance s

/-- The state with the instruction whose bits are `w`, numbered as spec/opcode_table.json numbers them, stored where
`step` fetches its next instruction (notes/assumptions/4.md). -/
def State.withFetchWord (s : State) (nbits w : Nat) : State := s.placeInstr (tableBytes nbits w)

end Sys2Proof.Machine
end

