-- ==== Sys2Proof/Safety.lean ====
section
/-! DEFINITION. What counts as a clean and a final state, and the invariants claims are stated with. -/

namespace Sys2Proof.Machine

/-- No fault is recorded and no refusal marked. -/
abbrev State.Clean (s : State) : Prop := s.faults = [] ∧ s.refused = false

/-- A final state: the harts exist and are all halted, with no fault recorded and no refusal marked (spec/60_exceptions.md
R103, R107; decision D6: a state with a fault is never final). A run cut by `MAXITR` is not final (D29). -/
abbrev State.Final (s : State) : Prop :=
  s.Clean ∧ s.phase = .running ∧ ∀ h ∈ s.harts, h.halted = true

/-- The topology part of a bank (spec/10_state.md R14: constant for its lifetime). -/
def State.bankEntries (s : State) : List BankEntry := s.banks.map (·.toBankEntry)

/-- The hart ids, in order (R24: constant for a hart's lifetime). -/
def State.hartIds (s : State) : List Nat := s.harts.map (·.id)

/-- What exists is what the topology lists, as far as the bring-up has come (R14, R16, R23, R122): before it nothing;
then one bank per bank entry of a well-formed topology; at last one hart per hart entry too. -/
def State.TopologyInv (s : State) : Prop :=
  match s.phase with
  | .build _ => s.banks = [] ∧ s.harts = []
  | .load _ =>
    Params.topologyProblem s.params = none ∧ s.bankEntries = s.params.banks ∧ s.harts = []
  | .construct _ =>
    Params.topologyProblem s.params = none ∧ s.bankEntries = s.params.banks ∧ s.harts = []
  | .running =>
    Params.topologyProblem s.params = none ∧ s.bankEntries = s.params.banks ∧
      s.hartIds = s.params.harts.map (·.id)

/-- The machine's invariant: the memory is in canonical form (R12, R15) and what exists is what the topology lists. -/
def State.Inv (s : State) : Prop := Memory.wf s.banks = true ∧ s.TopologyInv

/-- A word is a multiple of 4. -/
abbrev Aligned (w : Word) : Prop := w.toNat % 4 = 0

/-- An event gives no hart a misaligned reset address. -/
def Event.AlignedReset : Event → Prop
  | .reset _ (some r) => Aligned r
  | _ => True

/-- Every hart of a running system has an aligned `pc` and reset address, and no pending event gives it another
(R27, conflict C9: a requirement on the image and the configuration). -/
def State.PcAligned (s : State) : Prop :=
  s.phase = .running ∧ (∀ h ∈ s.harts, Aligned h.pc ∧ Aligned h.resetAddr) ∧ ∀ e ∈ s.schedule, e.AlignedReset

/-- A running hart's fetch reads word `w` (spec/40_pipeline.md R70, R71; spec/20_memory.md R35, R38, R43): the `pc` is
aligned where that is checked, a bank claims it, execution is permitted where that is enforced, and the four bytes from
`pc` up lie in that bank and are `w`'s, least significant first. -/
def Fetches (p : Params) (m : Memory) (h : Hart) (w : Word) : Prop :=
  h.halted = false ∧ (p.fetchAlignCheck = true → Aligned h.pc) ∧
    ∃ b, m.select h.pc.toNat = some b ∧ (p.enforcePermissions = true → b.perm.execute = true) ∧
      ∀ i, i < 4 → b.claims (h.pc.toNat + i) = true ∧ b.byteAt (h.pc.toNat + i) = w.extractLsb' (8 * i) 8

/-- The faults of a running hart's fetch, in the priority of spec/60_exceptions.md R108. -/
inductive FetchFaults (p : Params) (m : Memory) (h : Hart) : FaultKind → Prop
  | misaligned (check : p.fetchAlignCheck = true) (pc : ¬Aligned h.pc) :
      FetchFaults p m h (.misalignedFetch h.pc)
  | unclaimed (aligned : p.fetchAlignCheck = true → Aligned h.pc)
      (absent : ∀ b ∈ m, b.claims h.pc.toNat = false) :
      FetchFaults p m h (.fetchOutOfBounds h.pc)
  | denied (b : Bank) (aligned : p.fetchAlignCheck = true → Aligned h.pc)
      (bank : m.select h.pc.toNat = some b) (enforced : p.enforcePermissions = true)
      (flag : b.perm.execute = false) :
      FetchFaults p m h (.permissionDenied h.pc .fetch)
  | overrun (b : Bank) (i : Nat) (aligned : p.fetchAlignCheck = true → Aligned h.pc)
      (bank : m.select h.pc.toNat = some b) (permitted : p.enforcePermissions = true → b.perm.execute = true)
      (inside : ∀ j, j < i → b.claims (h.pc.toNat + j) = true) (width : i < 4)
      (outside : b.claims (h.pc.toNat + i) = false) :
      FetchFaults p m h (.outOfBounds (h.pc.toNat + i))

/-- A hart after the fetch of word `w` (R71, R28). -/
def afterFetchOf (h : Hart) (w : Word) : Hart := { h with pc := h.pc + 4#32, ir := w }

/-- What the fetch of word `w` shows the host (R116). -/
def shownByFetch (p : Params) (h : Hart) (w : Word) : List Output :=
  if p.verbose = true then [.trace { id := h.id, pc := h.pc, instruction := w }] else []

/-- The next step of the system is a tick of hart `k`, which is `h`; the second state is the one that tick starts from.
Either the next pending event asks for it (R83), or it is the driver's, with nothing pending or `auto` at the front, and
the driver has taken it off its round and off `MAXITR` (R84, notes/assumptions/8.md, 9.md). -/
inductive NextTick (s : State) : State → Nat → Hart → Prop
  | scheduled (es : List Event) (k : Nat) (h : Hart) (going : s.ended = false)
      (event : s.schedule = .tick k :: es) (hart : s.harts[k]? = some h) :
      NextTick s { s with schedule := es } k h
  | driven (es : List Event) (k : Nat) (rest : List Nat) (h : Hart) (going : s.ended = false)
      (event : s.schedule = [] ∧ es = [] ∨ s.schedule = .auto :: es) (phase : s.phase = .running)
      (left : s.ticksLeft ≠ some 0) (round : s.nextRound = k :: rest) (hart : s.harts[k]? = some h) :
      NextTick s { s with
        schedule := es
        round := Driver.after s.params.driver k rest
        ticksLeft := s.ticksLeft.map (· - 1) } k h

/-- The state after the tick of hart `k`, which started from `s`, has fetched word `w` as `h`. -/
def fetchedState (s : State) (k : Nat) (h : Hart) (w : Word) : State :=
  { s with
    harts := s.harts.set k (afterFetchOf h w)
    output := s.output ++ shownByFetch s.params h w
    current := k }

/-- What the machine does by itself is the next step, and `es` is what is pending after it. -/
def ProceedsNext (s : State) (es : List Event) : Prop :=
  s.ended = false ∧ (s.schedule = [] ∧ es = [] ∨ s.schedule = .auto :: es)

/-- The `n` bytes of a file at offset `o`, little-endian, as an unbounded natural (spec/41_image_loader.md R98). -/
def fileNat (img : List Byte) (o n : Nat) : Nat :=
  ((List.range n).map fun i => (img.getD (o + i) 0#8).toNat * 2 ^ (8 * i)).sum

/-- The file offset of program header `k` (R86, R87). -/
def fileHeaderAt (img : List Byte) (k : Nat) : Nat := fileNat img 0x1C 4 + k * fileNat img 0x2A 2

/-- The fields R87 gives program header `k`, from the file's bytes. -/
def fileHeader (img : List Byte) (k : Nat) : ProgramHeader where
  type := fileNat img (fileHeaderAt img k) 4
  offset := fileNat img (fileHeaderAt img k + 0x04) 4
  paddr := fileNat img (fileHeaderAt img k + 0x0C) 4
  filesz := fileNat img (fileHeaderAt img k + 0x10) 4
  flags := BitVec.ofNat 32 (fileNat img (fileHeaderAt img k + 0x18) 4)

/-- The checks of R88 pass, on the fields R86 gives the file. -/
def HeaderSound (p : Params) (img : List Byte) : Prop :=
  52 ≤ img.length ∧ (p.elfCheckMagic = true → img.take 4 = [0x7F#8, 0x45#8, 0x4C#8, 0x46#8]) ∧
    img[4]? = some 1#8 ∧ img[5]? = some 1#8 ∧ fileNat img 0x2C 2 ≠ 0 ∧ 32 ≤ fileNat img 0x2A 2 ∧
    fileHeaderAt img (fileNat img 0x2C 2 - 1) + 32 ≤ img.length

/-- Every check made before the first byte is stored passes: the header's, and that the bytes of every eligible segment
lie in the file (R88, R89, R91). -/
def ImageSound (p : Params) (img : List Byte) : Prop :=
  HeaderSound p img ∧ ∀ h ∈ eligibleSegments p img, h.offset + h.filesz ≤ img.length

/-- A segment of an image covers an address (R93). -/
def ProgramHeader.covers (h : ProgramHeader) (a : Nat) : Prop := h.paddr ≤ a ∧ a < h.paddr + h.filesz

/-- An address can be placed: it lies in the 32-bit space and a bank claims it (R93). -/
def Placeable (m : Memory) (a : Nat) : Prop := a < 2 ^ 32 ∧ ∃ b ∈ m, b.claims a = true

/-- What address `a` reads as after the segments `hs` of an image were placed over `m`: the byte of the last segment
in order that covers it (R93, R94), else what it read before. -/
def readAfterPlacing (img : List Byte) (hs : List ProgramHeader) (m : Memory) (a : Nat) : Except FaultKind Byte :=
  match hs.reverse.find? fun h => decide (h.paddr ≤ a) && decide (a < h.paddr + h.filesz) with
  | some h => .ok (img.getD (h.offset + (a - h.paddr)) 0#8)
  | none => m.hostRead a

/-- The state without its output and its verbose flag: what a trace line cannot change (R116). -/
def State.quiet (s : State) : State :=
  { s with params := { s.params with verbose := false }, output := [] }

/-- The fault without the outputs of the state it carries. -/
def Fault.quiet : Fault → Fault
  | .raised r s => .raised r s.quiet
  | .simulationEnded => .simulationEnded
  | .driverStopped r => .driverStopped r

/-- The refusal without the outputs of the state it carries. -/
def Refusal.quiet : Refusal → Refusal
  | .unclassifiedWord w a s => .unclassifiedWord w a s.quiet
  | .noSuchHart k => .noSuchHart k
  | r => r

/-- The outcome without outputs. -/
def Result.quiet : Result → Result
  | .next s => .next s.quiet
  | .fault f => .fault f.quiet
  | .refused r => .refused r.quiet

/-- Every register of a hart reads 0. -/
def Hart.RegistersZero (h : Hart) : Prop := ∀ i, h.regs.get i = 0#32

end Sys2Proof.Machine
end

