-- ==== Sys2Proof/WellFormed.lean ====
section
/-! DEFINITION. Which descriptors the decode stage can give (spec/30_encoding.md R64 to R66). -/

namespace Sys2Proof

/-- `Unclassified` carries a word other than the no-op's (R66: the `2^32 - 1` words other than `0x00000013`). -/
def Instr.wellFormed : Instr → Bool
  | .nop => true
  | .unclassified w => w != nopWord

/-- The same check as a proposition. -/
abbrev Instr.WellFormed (i : Instr) : Prop := i.wellFormed = true

end Sys2Proof
end

