-- ==== Sys2Proof/Certificates/Slice0/Obligations.lean ====
section
/-! DEFINITION. The statements for the provers, each over every state and every value of the parameters. -/

open Sys2Proof Sys2Proof.Machine

/-! ## The register file -/

/-- R19, R20: register 0 reads 0 and discards writes; any other register reads what was last written by `set` or
`clear`; a write changes no other register. -/
def Obligations.RegisterSetThenGet : Prop :=
  ∀ (r : RegisterFile) (i : Fin 32) (v : Word),
    (i = 0 → r.set i v = r) ∧ (i ≠ 0 → (r.set i v).get i = v) ∧ r.get 0 = 0#32 ∧
      (∀ j, j ≠ i → (r.set i v).get j = r.get j) ∧ r.clear.get i = 0#32

/-- R21: `clear()` zeroes every register. -/
def Obligations.RegisterClearZeroes : Prop :=
  ∀ (r : RegisterFile) (i : Fin 32), r.clear.get i = 0#32

/-! ## Banks, decoder, accessors -/

/-- R15: every byte of a freshly created bank is `0x00`. -/
def Obligations.FreshBankReadsZero : Prop :=
  ∀ (e : BankEntry) (a : Nat), (Bank.fresh e).byteAt a = 0x00#8

/-- R13, R35 and decision D9 (the first match among overlapping banks): `Decode(a)` is the first bank in topology order
with `base <= a < base + size`, and none exactly if there is no such bank. -/
def Obligations.DecoderSelectsFirstClaimingBank : Prop :=
  ∀ (m : Memory) (a : Nat),
    (∀ b, m.select a = some b ↔
      ∃ pre post, m = pre ++ b :: post ∧ (b.base.toNat ≤ a ∧ a < b.base.toNat + b.size.toNat) ∧
        ∀ c ∈ pre, ¬(c.base.toNat ≤ a ∧ a < c.base.toNat + c.size.toNat)) ∧
    (m.select a = none ↔ ∀ b ∈ m, ¬(b.base.toNat ≤ a ∧ a < b.base.toNat + b.size.toNat))

/-- R39: `BankRead` is the unsigned little-endian value of the `n` bytes, or `OutOfBounds` at the first byte out of
range in ascending order. -/
def Obligations.BankReadIsLittleEndian : Prop :=
  ∀ (b : Bank) (a : Nat) (n : Width),
    ((∀ i, i < n.bytes → b.claims (a + i) = true) →
      ∃ v : Word, b.read a n = .ok v ∧
        v.toNat = ((List.range n.bytes).map fun i => (b.byteAt (a + i)).toNat * 2 ^ (8 * i)).sum ∧
        v.toNat < 2 ^ (8 * n.bytes)) ∧
    ∀ i, i < n.bytes → (∀ j, j < i → b.claims (a + j) = true) → b.claims (a + i) = false →
      b.read a n = .error (.outOfBounds (a + i))

/-- R40 and decision D17: `BankWrite` stores byte `i` of `v` at `a + i` for every byte below the first one out of range,
leaves every other byte, and faults exactly at that first one. -/
def Obligations.BankWriteStoresBytesBelowTheEnd : Prop :=
  ∀ (b : Bank) (a : Nat) (n : Width) (v : Word), b.wf = true →
    (b.write a n v).1.toBankEntry = b.toBankEntry ∧
    ((∀ i, i < n.bytes → b.claims (a + i) = true) → (b.write a n v).2 = none) ∧
    (∀ i, i < n.bytes → (∀ j, j < i → b.claims (a + j) = true) → b.claims (a + i) = false →
      (b.write a n v).2 = some (.outOfBounds (a + i))) ∧
    (∀ i, i < n.bytes → (∀ j, j ≤ i → b.claims (a + j) = true) →
      (b.write a n v).1.byteAt (a + i) = v.extractLsb' (8 * i) 8) ∧
    ∀ x, (∀ i, i < n.bytes → x = a + i → ∃ j, j ≤ i ∧ b.claims (a + j) = false) →
      (b.write a n v).1.byteAt x = b.byteAt x

/-- R51: where the bytes lie in the bank `Decode(a)`, a store followed by a fetch of the same width returns the low `8n`
bits of the value. The memory is in its canonical form, which every step keeps (`StepKeepsTheInvariant`). -/
def Obligations.StoreThenFetchReturnsValue : Prop :=
  ∀ (m : Memory) (a n) (v : Word) (b : Bank), Memory.wf m = true → m.select a = some b →
    (∀ i, i < Width.bytes n → b.claims (a + i) = true) →
      ∃ b' w, b.write a n v = (b', none) ∧ (m.replace a b').select a = some b' ∧
        b'.read a n = .ok w ∧ w.toNat = v.toNat % 2 ^ (8 * Width.bytes n)

/-- R51 through the collection-level accessors of R46 and R47, with the permission premises of R43 (decision D4). -/
def Obligations.MemWriteThenMemRead : Prop :=
  ∀ (p : Params) (m : Memory) (a : Word) (n : Width) (v : Word) (b : Bank), Memory.wf m = true →
    m.select a.toNat = some b → (∀ i, i < n.bytes → b.claims (a.toNat + i) = true) →
    (p.enforcePermissions = true → b.perm.write = true ∧ b.perm.read = true) →
      ∃ m' w, m.write p a n v = (m', none) ∧ m'.read p a n .load = .ok w ∧
        w.toNat = v.toNat % 2 ^ (8 * n.bytes)

/-- R37: an access is routed by its first address; where a later byte lies outside that bank it fails at the first such
byte, whatever other banks claim. Each clause has the permission premise R43 gives its own kind of access. -/
def Obligations.AccessOverrunningItsBankFails : Prop :=
  ∀ (p : Params) (m : Memory) (a : Word) (n : Width) (b : Bank) (i : Nat), m.select a.toNat = some b → i < n.bytes →
    (∀ j, j < i → b.claims (a.toNat + j) = true) → b.claims (a.toNat + i) = false →
      (∀ k : AccessKind, (p.enforcePermissions = true → k.allowed b.perm = true) →
        m.read p a n k = .error (.outOfBounds (a.toNat + i))) ∧
      ∀ v, (p.enforcePermissions = true → b.perm.write = true) →
        (m.write p a n v).2 = some (.outOfBounds (a.toNat + i))

/-- The source's property W1 (R46, R47, R48, R71): an address no bank claims makes every accessor fail with
`OutOfBounds`, the fetch with `FetchOutOfBounds`, and changes nothing. -/
def Obligations.UnclaimedAddressFailsEveryAccessor : Prop :=
  ∀ (p : Params) (m : Memory) (a : Word) (n : Width) (v : Word) (u : Byte),
    (∀ b ∈ m, b.claims a.toNat = false) →
      m.read p a n .load = .error (.outOfBounds a.toNat) ∧
      m.read p a n .fetch = .error (.fetchOutOfBounds a) ∧
      m.write p a n v = (m, some (.outOfBounds a.toNat)) ∧
      m.hostRead a.toNat = .error (.outOfBounds a.toNat) ∧
      m.hostWrite a.toNat u = .error (.outOfBounds a.toNat)

/-- R43 and decision D4: an enforced permission the selected bank lacks raises `PermissionDenied` before any byte and
changes nothing. -/
def Obligations.PermissionDeniedBeforeAnyByte : Prop :=
  ∀ (p : Params) (m : Memory) (a : Word) (n : Width) (v : Word) (b : Bank),
    m.select a.toNat = some b → p.enforcePermissions = true →
      (b.perm.execute = false → m.read p a n .fetch = .error (.permissionDenied a .fetch)) ∧
      (b.perm.read = false → m.read p a n .load = .error (.permissionDenied a .load)) ∧
      (b.perm.write = false → m.write p a n v = (m, some (.permissionDenied a .store)))

/-- R43, an inference the spec draws (and decision D4): over banks with all three flags both settings of
`ENFORCE_PERMISSIONS` behave the same. -/
def Obligations.FullPermissionsMakeEnforcementIrrelevant : Prop :=
  ∀ (p : Params) (m : Memory) (e : Bool), (∀ b ∈ m, b.perm = ⟨true, true, true⟩) →
    ∀ (a : Word) (n : Width) (v : Word) (k : AccessKind),
      m.read { p with enforcePermissions := e } a n k = m.read p a n k ∧
      m.write { p with enforcePermissions := e } a n v = m.write p a n v

/-- R44, R48 and decision D5: a host byte write succeeds on any bank that claims the address, whatever its flags; the
byte then reads as written and every other byte reads as before. As steps of the host: the write answers the state with
that memory, the observation read the state that shows the byte, and nothing else changes (notes/assumptions/7.md for the
pending events, 11.md for the output). -/
def Obligations.HostByteWriteChangesOneByte : Prop :=
  (∀ (m : Memory) (a : Nat) (v : Byte) (b : Bank), Memory.wf m = true → m.select a = some b →
    ∃ m', m.hostWrite a v = .ok m' ∧ m'.hostRead a = .ok v ∧ ∀ x, x ≠ a → m'.hostRead x = m.hostRead x) ∧
  ∀ (s : State) (es : List Event) (a : Nat) (b : Bank), s.ended = false → s.banks.select a = some b →
    (∀ v, s.schedule = .writeByte a v :: es → ∃ m', s.banks.hostWrite a v = .ok m' ∧
      step s = .next { s with schedule := es, banks := m' }) ∧
    (s.schedule = .readByte a :: es →
      step s = .next { s with schedule := es, output := s.output ++ [.byte a (b.byteAt a)] })

/-- R75, R100, R103: the contract of an extension-point memory stage: a load hands on what `MemRead` reads; a store leaves
what `MemWrite` leaves; a fault of either is raised for the hart under each scope, the bytes already written standing
(decisions D6, D17). -/
def Obligations.MemoryStagesReuseTheAccessors : Prop :=
  ∀ (s : State) (k : Nat) (h : Hart) (a : Word) (n : Width) (v : Word) (use : Word → State → Result),
    s.harts[k]? = some h →
      (∀ w, s.banks.read s.params a n .load = .ok w → loadStage k a n use s = use w s) ∧
      (∀ m, s.banks.write s.params a n v = (m, none) → storeStage k a n v s = .next { s with banks := m }) ∧
      (∀ f, s.banks.read s.params a n .load = .error f →
        (s.params.faultScope = .terminateSimulation → loadStage k a n use s =
          .fault (.raised ⟨f, .hart h.id⟩ { s with faults := s.faults ++ [⟨f, .hart h.id⟩] })) ∧
        (s.params.faultScope = .haltHart → loadStage k a n use s = .next { s with
          faults := s.faults ++ [⟨f, .hart h.id⟩], harts := s.harts.set k { h with halted := true } })) ∧
      (∀ m f, s.banks.write s.params a n v = (m, some f) →
        (s.params.faultScope = .terminateSimulation → storeStage k a n v s =
          .fault (.raised ⟨f, .hart h.id⟩ { s with banks := m, faults := s.faults ++ [⟨f, .hart h.id⟩] })) ∧
        (s.params.faultScope = .haltHart → storeStage k a n v s = .next { s with
          banks := m
          faults := s.faults ++ [⟨f, .hart h.id⟩]
          harts := s.harts.set k { h with halted := true } }))

/-! ## Encoding -/

/-- R60 to R66: every well-formed descriptor decodes from its word, and from its four bytes with any bytes after them. -/
def Obligations.DecodeOfEncodeIsIdentity : Prop :=
  ∀ (i : Instr) (rest : List Byte), i.WellFormed →
    decode (encode i) = i ∧ decodeBytes (encodeBytes i ++ rest) = .ok (i, rest)

/-- R60, R65: decoding is total on strings of at least four bytes and drops no bit: the descriptor is well-formed and
its encoding and the rest are the string again. -/
def Obligations.EncodeOfDecodeIsIdentity : Prop :=
  ∀ bs : List Byte, 4 ≤ bs.length →
    ∃ i rest, decodeBytes bs = .ok (i, rest) ∧ i.WellFormed ∧ encodeBytes i ++ rest = bs

/-- R65 and decision D2: the decode compares the whole word. -/
def Obligations.DecodeRecognisesTheNopAlone : Prop :=
  ∀ w : Word, (w = 0x00000013#32 → decode w = .nop) ∧ (w ≠ 0x00000013#32 → decode w = .unclassified w)

/-- The no-op's fields (R61, R63) and the words of spec/95_test_vectors.md 2.6. -/
def Obligations.SpecWordsDecode : Prop :=
  decode (IType.toWord ⟨0#12, 0#5, 0b000#3, 0#5, 0b0010011#7⟩) = .nop ∧
  IType.ofWord 0x00000013#32 = ⟨0#12, 0#5, 0b000#3, 0#5, 0b0010011#7⟩ ∧
  decodeBytes [0x13#8, 0x00#8, 0x00#8, 0x00#8] = .ok (.nop, []) ∧
  decodeBytes [0x93#8, 0x00#8, 0x10#8, 0x00#8] = .ok (.unclassified 0x00100093#32, []) ∧
  decode 0x00000000#32 = .unclassified 0x00000000#32 ∧
  decode 0x00100013#32 = .unclassified 0x00100013#32 ∧
  decode 0x80000013#32 = .unclassified 0x80000013#32 ∧
  decode 0x00000073#32 = .unclassified 0x00000073#32 ∧
  decode 0x00100073#32 = .unclassified 0x00100073#32

/-! ## Instructions -/

/-- R77: `NOP` completes from every state, with no effect beyond its fetch. -/
def Obligations.NopCompletes : Prop :=
  ∀ s : State, exec .nop s = .next s

/-- R78 and decision D1: `UNCLASSIFIED` completes under `scaffold_noop`, with no effect beyond its fetch. -/
def Obligations.UnclassifiedCompletesUnderScaffoldNoop : Prop :=
  ∀ (w : Word) (s : State), s.params.unclassifiedPolicy = .scaffoldNoop → exec (.unclassified w) s = .next s

/-- R78, R107 and decision D1: under `refuse`, `UNCLASSIFIED` ends the step in a refusal that names the word and its
fetch address `pc - 4`, marks the state refused and changes nothing else. -/
def Obligations.UnclassifiedIsRefusedUnderRefuse : Prop :=
  ∀ (w : Word) (s : State) (h : Hart), s.params.unclassifiedPolicy = .refuse → s.harts[s.current]? = some h →
    exec (.unclassified w) s = .refused (.unclassifiedWord w (h.pc - 4#32) { s with refused := true })

/-- R77, R78: the frame of `NOP` and `UNCLASSIFIED`: after the fetch an instruction that completes changes no register,
no flag, no memory byte, no other state. -/
def Obligations.InstructionsChangeNothingAfterTheFetch : Prop :=
  ∀ (i : Instr) (s t : State), exec i s = .next t →
    t = s ∧ (∀ a, t.banks.hostRead a = s.banks.hostRead a) ∧ t.harts = s.harts ∧ t.faults = s.faults

/-- A step runs the decoded instruction: when the four bytes at a running hart's `pc` are `w`, the step that ticks it is
`exec` of `decode w` on the state the fetch leaves, whether a scheduled tick or the driver's (R68, R71, R73). -/
def Obligations.StepRunsTheDecodedInstruction : Prop :=
  ∀ (s s0 : State) (k : Nat) (h : Hart) (w : Word), NextTick s s0 k h → Fetches s.params s.banks h w →
    step s = exec (decode w) (fetchedState s0 k h w)

/-- R77: a running hart's tick over the no-op, scheduled or the driver's: `IR` holds it, `pc` is 4 further (modulo 2^32,
decision D13), a line is traced if verbose, and nothing else of the hardware changes. -/
def Obligations.NopTick : Prop :=
  ∀ (s s0 : State) (k : Nat) (h : Hart), NextTick s s0 k h → Fetches s.params s.banks h 0x00000013#32 →
    step s = .next (fetchedState s0 k h 0x00000013#32)

/-- R78 and decision D1: a running hart's tick over any other word, scheduled or the driver's, under both policies. -/
def Obligations.UnclassifiedTick : Prop :=
  ∀ (s s0 : State) (k : Nat) (h : Hart) (w : Word), NextTick s s0 k h → Fetches s.params s.banks h w →
    w ≠ 0x00000013#32 →
      (s.params.unclassifiedPolicy = .scaffoldNoop → step s = .next (fetchedState s0 k h w)) ∧
      (s.params.unclassifiedPolicy = .refuse →
        step s = .refused (.unclassifiedWord w h.pc { fetchedState s0 k h w with refused := true }))

/-- R69: a halted hart's tick puts the no-op in `IR`, and reads no memory, emits no line, raises no fault and leaves
`pc`. -/
def Obligations.HaltedTick : Prop :=
  ∀ (s s0 : State) (k : Nat) (h : Hart), NextTick s s0 k h → h.halted = true →
    step s = .next { s0 with harts := s0.harts.set k { h with ir := 0x00000013#32 }, current := k }

/-! ## Fetch faults and their scope -/

/-- R70, R71, R108 and decisions D11, D12: a running hart's fetch reads a word exactly as `Fetches` says and raises a
fault exactly as `FetchFaults` says, and does one of the two. -/
def Obligations.FetchReadsOrFaultsAsSpecified : Prop :=
  ∀ (p : Params) (m : Memory) (h : Hart), h.halted = false →
    (∀ w, fetch p m h = .ok (afterFetchOf h w, shownByFetch p h w) ↔ Fetches p m h w) ∧
    (∀ f, fetch p m h = .error f ↔ FetchFaults p m h f) ∧
    ((∃ w, Fetches p m h w) ∨ ∃ f, FetchFaults p m h f)

/-- R72, R100, R101, R103 and decisions D6, D12: under `terminate_simulation` a faulting fetch of a tick, scheduled or the
driver's, ends the simulation, with the fault recorded and `pc`, `IR` and everything else as before. -/
def Obligations.FetchFaultEndsTheSimulation : Prop :=
  ∀ (s s0 : State) (k : Nat) (h : Hart) (f : FaultKind), NextTick s s0 k h → h.halted = false →
    FetchFaults s.params s.banks h f → s.params.faultScope = .terminateSimulation →
      step s = .fault (.raised ⟨f, .hart h.id⟩ { s0 with faults := s0.faults ++ [⟨f, .hart h.id⟩] })

/-- R103 and decision D6: under `halt_hart` a faulting fetch of a tick, scheduled or the driver's, halts that hart alone,
its `pc` and `IR` kept, and records the fault. -/
def Obligations.FetchFaultHaltsTheHart : Prop :=
  ∀ (s s0 : State) (k : Nat) (h : Hart) (f : FaultKind), NextTick s s0 k h → h.halted = false →
    FetchFaults s.params s.banks h f → s.params.faultScope = .haltHart →
      step s = .next { s0 with
        faults := s0.faults ++ [⟨f, .hart h.id⟩], harts := s0.harts.set k { h with halted := true } }

/-- R48, R95, R103, R105, R122 and decision D6: a fault the host raises ends the simulation under both scopes: a byte access
between ticks, a load that fails (what it placed before standing), an ill-formed topology. That a host access outside a
load counts as a host fault is notes/assumptions/18.md's reading; which `ConfigError` is reported is 19.md's choice. -/
def Obligations.HostFaultEndsTheSimulation : Prop :=
  ∀ (s : State) (es : List Event), s.ended = false →
    (∀ a v, (∀ b ∈ s.banks, b.claims a = false) → (s.schedule = .writeByte a v :: es ∨ s.schedule = .readByte a :: es) →
      step s = .fault (.raised ⟨.outOfBounds a, .host⟩
        { s with schedule := es, faults := s.faults ++ [⟨.outOfBounds a, .host⟩] })) ∧
    (∀ img m f, ProceedsNext s es → s.phase = .load img → load s.params img s.banks = (m, .error f) →
      step s = .fault (.raised ⟨f, .host⟩ { s with
        schedule := es, banks := m, faults := s.faults ++ [⟨f, .host⟩] })) ∧
    ∀ img r, ProceedsNext s es → s.phase = .build img → Params.topologyProblem s.params = some r →
      step s = .fault (.raised ⟨.configError r, .host⟩
        { s with schedule := es, faults := s.faults ++ [⟨.configError r, .host⟩] })

/-- R103, R107 and decisions D1, D6 (notes/assumptions/5.md for the outcome's name): no agent has a further step exactly
after a refusal, a host's fault, or any fault under `terminate_simulation`. -/
def Obligations.EndedSimulationHasNoStep : Prop :=
  ∀ s : State, step s = .fault .simulationEnded ↔
    (s.refused = true ∨ (s.params.faultScope = .terminateSimulation ∧ s.faults ≠ []) ∨
      ∃ r ∈ s.faults, r.agent = .host)

/-- R101: a raised fault is recorded at the end of the fault list, and no step clears a record. -/
def Obligations.FaultRecordsAreNeverCleared : Prop :=
  ∀ s : State,
    (∀ t, step s = .next t → ∃ new, t.faults = s.faults ++ new) ∧
    (∀ r t, step s = .fault (.raised r t) → t.faults = s.faults ++ [r]) ∧
    (∀ w a t, step s = .refused (.unclassifiedWord w a t) → t.faults = s.faults)

/-! ## Halting and reset -/

/-- R80 and decision D3: the halt command sets `halted` and changes nothing else. -/
def Obligations.HaltCommandSetsTheFlagAlone : Prop :=
  ∀ (s : State) (es : List Event) (k : Nat) (h : Hart), s.ended = false → s.schedule = .halt k :: es →
    s.harts[k]? = some h →
      step s = .next { s with schedule := es, harts := s.harts.set k { h with halted := true } }

/-- R120, R121 and decisions D14, D16: `reset()` with an optional address zeroes the registers, restores `pc` and leaves
`Halted`; no other hart, no bank byte and no fault record changes. -/
def Obligations.ResetCommandRestoresTheHart : Prop :=
  ∀ (s : State) (es : List Event) (k : Nat) (a : Option Word) (h : Hart), s.ended = false →
    s.schedule = .reset k a :: es → s.harts[k]? = some h →
      ∃ h', step s = .next { s with schedule := es, harts := s.harts.set k h' } ∧
        h'.id = h.id ∧ h'.halted = false ∧ h'.ir = 0x00000000#32 ∧ (∀ i, h'.regs.get i = 0#32) ∧
        (∀ r, a = some r → h'.resetAddr = r ∧ h'.pc = r) ∧
        (a = none → h'.resetAddr = h.resetAddr ∧ h'.pc = h.resetAddr)

/-- R25: there is no transition out of `Halted` but an explicit `reset()` of that hart. -/
def Obligations.HaltedIsLeftOnlyByReset : Prop :=
  ∀ (s t : State) (k : Nat) (h : Hart), s.phase = .running → s.harts[k]? = some h → h.halted = true →
    step s = .next t → (∀ a es, s.schedule ≠ .reset k a :: es) →
      ∃ h', t.harts[k]? = some h' ∧ h'.halted = true

/-- R79 and decision D3: a running hart is halted only by the host's command, or by a fault of its own fetch under
`halt_hart`. -/
def Obligations.HaltedIsEnteredOnlyByCommandOrFault : Prop :=
  ∀ (s t : State) (k : Nat) (h h' : Hart), s.phase = .running → s.harts[k]? = some h → h.halted = false →
    step s = .next t → t.harts[k]? = some h' → h'.halted = true →
      (∃ es, s.schedule = .halt k :: es) ∨
      (s.params.faultScope = .haltHart ∧
        ∃ f, FetchFaults s.params s.banks h f ∧ t.faults = s.faults ++ [⟨f, .hart h.id⟩])

/-- R81, the bounded form of notes/assumptions/9.md: a hart halted on entry to `run()` is not ticked, and a running one
is ticked first. -/
def Obligations.RunTicksUntilHalted : Prop :=
  ∀ (s : State) (k n : Nat) (h : Hart), s.harts[k]? = some h →
    (h.halted = true → runHart k n s = .next s) ∧
    (h.halted = false → runHart k (n + 1) s = (tick k s).andThen (runHart k n))

/-! ## Whole-machine rules -/

/-- R12, R14, R16, R22, R23 and decision D10: every step keeps the machine's invariant: the memory in its canonical form,
and the banks and harts those of the topology. -/
def Obligations.StepKeepsTheInvariant : Prop :=
  ∀ s t : State, s.Inv → step s = .next t → t.Inv

/-- The invariant holds at reset (the topology is notes/assumptions/2.md's choice) and before any bring-up. -/
def Obligations.InvariantHoldsAtResetAndPowerOn : Prop :=
  State.reset.Inv ∧ ∀ (p : Params) (img : List Byte), (State.powerOn p img).Inv

/-- R27 as conflict C9 reads it: where every reset address given is a multiple of 4, every `pc` stays one, under every
setting of the parameters. -/
def Obligations.StepKeepsPcAligned : Prop :=
  ∀ s t : State, s.PcAligned → step s = .next t → t.PcAligned

/-- R14, R24, R11: a running system's bank geometry, permissions, hart ids and parameters never change. -/
def Obligations.GeometryAndIdsAreConstant : Prop :=
  ∀ s t : State, s.phase = .running → step s = .next t →
    t.bankEntries = s.bankEntries ∧ t.hartIds = s.hartIds ∧ t.params = s.params ∧ t.phase = .running

/-- R115, an inference the spec draws: since no hart stores, a running system's memory changes by a host write alone. -/
def Obligations.OnlyTheHostWritesMemory : Prop :=
  ∀ s t : State, s.phase = .running → step s = .next t → t.banks ≠ s.banks →
    ∃ a v es, s.schedule = .writeByte a v :: es

/-- R22, an inference the spec draws: a running system's registers change by `reset()` alone. -/
def Obligations.RegistersChangeOnlyByReset : Prop :=
  ∀ (s t : State) (k : Nat) (h h' : Hart), s.phase = .running → step s = .next t → s.harts[k]? = some h →
    t.harts[k]? = some h' → h'.regs ≠ h.regs →
      ∃ a es, s.schedule = .reset k a :: es ∧ h'.RegistersZero

/-- R22, an inference the spec draws: after construction every register reads 0, and every step keeps that. -/
def Obligations.StepKeepsRegistersZero : Prop :=
  ∀ s t : State, (∀ h ∈ s.harts, h.RegistersZero) → step s = .next t → ∀ h ∈ t.harts, h.RegistersZero

/-- R115, an inference the spec draws: a hart's tick, scheduled or the driver's, changes no other hart and no memory. -/
def Obligations.TickLeavesOtherHartsAndMemory : Prop :=
  ∀ (s s0 t : State) (k : Nat) (h : Hart), NextTick s s0 k h → step s = .next t →
    t.banks = s.banks ∧ ∀ j, j ≠ k → t.harts[j]? = s.harts[j]?

/-- R116 and decision D25: tracing changes no state: without its outputs, a verbose system steps as a silent one. -/
def Obligations.TraceChangesNoState : Prop :=
  ∀ s : State, Result.quiet (step s) = Result.quiet (step s.quiet)

/-- R58, an inference the spec draws: a byte the host writes into the word at a hart's `pc` is fetched by its next tick,
where `Decode` routes that byte to the bank the fetch reads. -/
def Obligations.HostPatchIsFetched : Prop :=
  ∀ (p : Params) (m m' : Memory) (h : Hart) (w : Word) (i : Nat) (v : Byte), Memory.wf m = true →
    Fetches p m h w → i < 4 → m.select (h.pc.toNat + i) = m.select h.pc.toNat →
    m.hostWrite (h.pc.toNat + i) v = .ok m' →
      ∃ w' : Word, Fetches p m' h w' ∧ w'.extractLsb' (8 * i) 8 = v ∧
        ∀ j, j < 4 → j ≠ i → w'.extractLsb' (8 * j) 8 = w.extractLsb' (8 * j) 8

/-! ## Drivers -/

/-- R84 and decision D7: the driver goes on with what is left of its round, harts halted meanwhile dropped from its front;
a new round, begun when nothing is left, lists exactly the harts that are not halted, in topology order. The driver ticks
only such a hart; round-robin then leaves the rest of the round. That run-to-completion takes the harts in topology order
too is the model's choice, as are the other points of notes/assumptions/8.md. -/
def Obligations.DriverTicksRunningHartsInOrder : Prop :=
  ∀ s : State,
    s.runningHarts.Pairwise (· < ·) ∧
    (∀ k, k ∈ s.runningHarts ↔ ∃ h, s.harts[k]? = some h ∧ h.halted = false) ∧
    (s.round.dropWhile s.haltedAt = [] → s.nextRound = s.runningHarts) ∧
    (s.round.dropWhile s.haltedAt ≠ [] → s.nextRound = s.round.dropWhile s.haltedAt) ∧
    ∀ k rest, s.nextRound = k :: rest →
      (∃ h, s.harts[k]? = some h ∧ h.halted = false) ∧
      (s.params.driver = .roundRobin → (s.countTick k rest).round = rest) ∧
      (s.params.driver = .runToCompletion → (s.countTick k rest).round = k :: rest)

/-- R84, R81 and decision D29 (notes/assumptions/9.md, 10.md for the outcome): with nothing scheduled the driver stops
exactly when `MAXITR` is used up or every hart is halted. That the former is reported where both hold is
notes/assumptions/20.md's choice. -/
def Obligations.DriverStopsWhenHaltedOrCapped : Prop :=
  ∀ s : State, s.ended = false → s.schedule = [] → s.phase = .running →
    (step s = .fault (.driverStopped .maxitrReached) ↔ s.ticksLeft = some 0) ∧
    (s.ticksLeft ≠ some 0 →
      (step s = .fault (.driverStopped .allHalted) ↔ ∀ h ∈ s.harts, h.halted = true))

/-- R103, R107 and decisions D6, D29: a final state (every hart halted, no fault, no refusal) takes no step by itself: the
driver stops (notes/assumptions/10.md for the outcome). -/
def Obligations.FinalStateTakesNoStepByItself : Prop :=
  ∀ s : State, s.Final → s.schedule = [] → ∃ r, step s = .fault (.driverStopped r)

/-- The model's own aid (notes/assumptions/4.md): an instruction placed where the next step fetches is what that hart
fetches; placing it keeps every field but the bank collection, every bank's topology entry, and every byte outside the four
at that hart's `pc`. -/
def Obligations.PlacedInstructionIsFetched : Prop :=
  ∀ (s : State) (k : Nat) (h : Hart) (b : Bank) (w : Nat), Memory.wf s.banks = true →
    s.nextHart = some k → s.harts[k]? = some h → h.halted = false →
    (s.params.fetchAlignCheck = true → Aligned h.pc) → s.banks.select h.pc.toNat = some b →
    (s.params.enforcePermissions = true → b.perm.execute = true) →
    (∀ i, i < 4 → b.claims (h.pc.toNat + i) = true) → w < 2 ^ 32 →
      Fetches s.params (s.withFetchWord 32 w).banks h (BitVec.ofNat 32 w) ∧
      { s.withFetchWord 32 w with banks := s.banks } = s ∧ (s.withFetchWord 32 w).nextHart = some k ∧
      (s.withFetchWord 32 w).bankEntries = s.bankEntries ∧
      ∀ x, (x < h.pc.toNat ∨ h.pc.toNat + 4 ≤ x) → (s.withFetchWord 32 w).banks.hostRead x = s.banks.hostRead x

/-! ## The image loader -/

/-- R88, R91 and decisions D20, D21, on the fields R86 gives the file: the checks in their order; the first that fails is
the one reported, an eligible segment whose bytes are not all in the file after the header's own; and an image that
passes them all is no `FormatError`. -/
def Obligations.HeaderChecksInOrder : Prop :=
  ∀ (p : Params) (img : List Byte) (m : Memory),
    let bad := fun r => load p img m = (m, .error (.formatError r))
    let magic := p.elfCheckMagic = true → img.take 4 = [0x7F#8, 0x45#8, 0x4C#8, 0x46#8]
    let phentsize := fileNat img 0x2A 2
    let phnum := fileNat img 0x2C 2
    (img.length < 52 → bad .tooShort) ∧
    (52 ≤ img.length → ¬magic → bad .badMagic) ∧
    (52 ≤ img.length → magic → img[4]? ≠ some 1#8 → bad .wrongClass) ∧
    (52 ≤ img.length → magic → img[4]? = some 1#8 → img[5]? ≠ some 1#8 → bad .wrongEndianness) ∧
    (52 ≤ img.length → magic → img[4]? = some 1#8 → img[5]? = some 1#8 → phnum = 0 → bad .noSegments) ∧
    (52 ≤ img.length → magic → img[4]? = some 1#8 → img[5]? = some 1#8 → phnum ≠ 0 →
      (phentsize < 32 ∨ img.length < fileNat img 0x1C 4 + (phnum - 1) * phentsize + 32) → bad .badSegmentTable) ∧
    (HeaderSound p img → (∃ h ∈ eligibleSegments p img, img.length < h.offset + h.filesz) → bad .truncatedSegment) ∧
    (ImageSound p img → ∀ r m', load p img m ≠ (m', .error (.formatError r)))

/-- R87, R90, R91, R92 and decisions D19, D22 (layout: notes/assumptions/14.md): where the header's checks pass, every
program header lies in the file; the eligible segments are the headers, read at `e_phoff + k * e_phentsize` in file
order, whose `p_type` is 1 and whose whole flag word the allow-list holds. -/
def Obligations.EligibleSegmentsAreReadFromTheFile : Prop :=
  ∀ (p : Params) (img : List Byte),
    (HeaderSound p img → ∀ k, k < fileNat img 0x2C 2 → fileHeaderAt img k + 32 ≤ img.length) ∧
    (∀ fs, p.allowedFlags = .listed fs →
      eligibleSegments p img = ((List.range (fileNat img 0x2C 2)).map (fileHeader img)).filter fun h =>
        decide (h.type = 1 ∧ h.flags ∈ fs)) ∧
    (p.allowedFlags = .everything →
      eligibleSegments p img = ((List.range (fileNat img 0x2C 2)).map (fileHeader img)).filter fun h =>
        decide (h.type = 1))

/-- R89 and decision D21: a `FormatError` leaves every bank unchanged. -/
def Obligations.FormatErrorStoresNothing : Prop :=
  ∀ (p : Params) (img : List Byte) (m m' : Memory) (r : FormatReason),
    load p img m = (m', .error (.formatError r)) → m' = m

/-- R97 (with the layout of R86, notes/assumptions/14.md): a load that succeeds returns `e_entry`; one of an image that
passes the checks with no eligible segment succeeds and leaves every bank unchanged. -/
def Obligations.LoaderReturnsTheEntryPoint : Prop :=
  ∀ (p : Params) (img : List Byte) (m : Memory),
    (∀ m' e, load p img m = (m', .ok e) →
      ∀ i, i < 4 → some (e.extractLsb' (8 * i) 8) = img[0x18 + i]?) ∧
    (HeaderSound p img → eligibleSegments p img = [] → ∃ e, load p img m = (m, .ok e))

/-- R93, R94, R96 and decision D23: after a load, every address some eligible segment covers reads that segment's byte,
the last such segment in file order winning, and every other address reads as before. -/
def Obligations.LoaderPlacesSegmentsLastWins : Prop :=
  ∀ (p : Params) (img : List Byte) (m m' : Memory) (e : Word), Memory.wf m = true →
    load p img m = (m', .ok e) → ∀ a : Nat, m'.hostRead a = readAfterPlacing img (eligibleSegments p img) m a

/-- R93, R95 and decision D23: where the checks pass, a load completes exactly if every byte of every eligible segment goes
to an address below `2^32` that a bank claims, and else ends in `OutOfBounds`; that fault is at the first such byte in
placing order, and the bytes placed before it, from earlier segments and lower addresses of its own, stand. -/
def Obligations.PlacementFailsOnlyOutsideTheBanks : Prop :=
  ∀ (p : Params) (img : List Byte) (m : Memory),
    (ImageSound p img →
      ((∃ m' e, load p img m = (m', .ok e)) ↔
        ∀ h ∈ eligibleSegments p img, ∀ a, h.covers a → Placeable m a) ∧
      ((∃ m' x, load p img m = (m', .error (.outOfBounds x))) ↔
        ∃ h ∈ eligibleSegments p img, ∃ a, h.covers a ∧ ¬Placeable m a)) ∧
    ∀ m' x, load p img m = (m', .error (.outOfBounds x)) →
      ((∀ b ∈ m, b.claims x = false) ∨ 2 ^ 32 ≤ x) ∧
      ∃ pre h post, eligibleSegments p img = pre ++ h :: post ∧ h.covers x ∧
        (∀ a, h.covers a → a < x → Placeable m a) ∧ (∀ g ∈ pre, ∀ a, g.covers a → Placeable m a) ∧
        (Memory.wf m = true → ∀ a,
          m'.hostRead a = readAfterPlacing img (pre ++ [{ h with filesz := x - h.paddr }]) m a)

/-! ## Bring-up -/

/-- R122, R119 and decisions D8, D14, D15: zeroed banks, then the loader, then one hart per id at `RESET_ADDR(id)`, by
default the entry point, every hart running with its registers 0. -/
def Obligations.BringUpConstructsTheSystem : Prop :=
  ∀ (p : Params) (img : List Byte) (m : Memory) (entry : Word), Params.topologyProblem p = none →
    load p img (p.banks.map Bank.fresh) = (m, .ok entry) →
      ∃ t, Host.Core.run Sys2Proof.core 3 (State.powerOn p img) = .next t ∧ t.phase = .running ∧ t.banks = m ∧
        t.faults = [] ∧ t.refused = false ∧ t.ticksLeft = p.maxitr ∧ t.hartIds = p.harts.map (·.id) ∧
        ∀ (k : Nat) (e : HartEntry), p.harts[k]? = some e → ∃ h, t.harts[k]? = some h ∧
          h.resetAddr = e.resetAddr.getD entry ∧ h.pc = h.resetAddr ∧ h.ir = 0x00000000#32 ∧ h.halted = false ∧
          h.RegistersZero

/-- R105 and decision D10: a topology in which a bank ends past `2^32` or two hart ids are equal, and no other, raises
`ConfigError` before anything is built. -/
def Obligations.BadTopologyRaisesConfigError : Prop :=
  ∀ (p : Params) (img : List Byte),
    (∃ r, step (State.powerOn p img) = .fault (.raised ⟨.configError r, .host⟩
      { State.powerOn p img with faults := [⟨.configError r, .host⟩] })) ↔
    ((∃ e ∈ p.banks, 2 ^ 32 < e.base.toNat + e.size.toNat) ∨ ¬(p.harts.map (·.id)).Nodup)

/-- R34: what the spec gives for the state after construction, at `State.reset`; its topology and the entry point `0x0`
are notes/assumptions/2.md's and 4.md's choice, the value of `IR` decision D14's. -/
def Obligations.ResetStateIsConstructed : Prop :=
  (∀ h ∈ State.reset.harts, h.pc = h.resetAddr ∧ h.RegistersZero ∧ h.ir = 0x00000000#32 ∧ h.halted = false) ∧
  (∀ b ∈ State.reset.banks, ∀ a, b.byteAt a = 0x00#8) ∧ State.reset.faults = [] ∧ State.reset.refused = false ∧
  State.reset.harts ≠ [] ∧ State.reset.banks ≠ []
end

