-- ==== Sys2Proof/Laws/State.lean ====
section
/-! SUPPORT. What each named state update leaves in each field, and how the composed updates read. -/

namespace Sys2Proof.Machine

/-! ### `State.setBanks` -/

@[simp] theorem State.setBanks_params (s : State) (m : Memory) : (s.setBanks m).params = s.params := rfl
@[simp] theorem State.setBanks_banks (s : State) (m : Memory) : (s.setBanks m).banks = m := rfl
@[simp] theorem State.setBanks_harts (s : State) (m : Memory) : (s.setBanks m).harts = s.harts := rfl
@[simp] theorem State.setBanks_faults (s : State) (m : Memory) : (s.setBanks m).faults = s.faults := rfl
@[simp] theorem State.setBanks_refused (s : State) (m : Memory) : (s.setBanks m).refused = s.refused := rfl
@[simp] theorem State.setBanks_phase (s : State) (m : Memory) : (s.setBanks m).phase = s.phase := rfl
@[simp] theorem State.setBanks_schedule (s : State) (m : Memory) : (s.setBanks m).schedule = s.schedule := rfl
@[simp] theorem State.setBanks_round (s : State) (m : Memory) : (s.setBanks m).round = s.round := rfl
@[simp] theorem State.setBanks_current (s : State) (m : Memory) : (s.setBanks m).current = s.current := rfl
@[simp] theorem State.setBanks_ticksLeft (s : State) (m : Memory) : (s.setBanks m).ticksLeft = s.ticksLeft := rfl
@[simp] theorem State.setBanks_output (s : State) (m : Memory) : (s.setBanks m).output = s.output := rfl

/-! ### `State.setHarts` -/

@[simp] theorem State.setHarts_params (s : State) (hs : List Hart) : (s.setHarts hs).params = s.params := rfl
@[simp] theorem State.setHarts_banks (s : State) (hs : List Hart) : (s.setHarts hs).banks = s.banks := rfl
@[simp] theorem State.setHarts_harts (s : State) (hs : List Hart) : (s.setHarts hs).harts = hs := rfl
@[simp] theorem State.setHarts_faults (s : State) (hs : List Hart) : (s.setHarts hs).faults = s.faults := rfl
@[simp] theorem State.setHarts_refused (s : State) (hs : List Hart) : (s.setHarts hs).refused = s.refused := rfl
@[simp] theorem State.setHarts_phase (s : State) (hs : List Hart) : (s.setHarts hs).phase = s.phase := rfl
@[simp] theorem State.setHarts_schedule (s : State) (hs : List Hart) : (s.setHarts hs).schedule = s.schedule := rfl
@[simp] theorem State.setHarts_round (s : State) (hs : List Hart) : (s.setHarts hs).round = s.round := rfl
@[simp] theorem State.setHarts_current (s : State) (hs : List Hart) : (s.setHarts hs).current = s.current := rfl
@[simp] theorem State.setHarts_ticksLeft (s : State) (hs : List Hart) : (s.setHarts hs).ticksLeft = s.ticksLeft := rfl
@[simp] theorem State.setHarts_output (s : State) (hs : List Hart) : (s.setHarts hs).output = s.output := rfl

/-! ### `State.setHart` -/

@[simp] theorem State.setHart_params (s : State) (k : Nat) (h : Hart) : (s.setHart k h).params = s.params := rfl
@[simp] theorem State.setHart_banks (s : State) (k : Nat) (h : Hart) : (s.setHart k h).banks = s.banks := rfl
@[simp] theorem State.setHart_harts (s : State) (k : Nat) (h : Hart) : (s.setHart k h).harts = s.harts.set k h := rfl
@[simp] theorem State.setHart_faults (s : State) (k : Nat) (h : Hart) : (s.setHart k h).faults = s.faults := rfl
@[simp] theorem State.setHart_refused (s : State) (k : Nat) (h : Hart) : (s.setHart k h).refused = s.refused := rfl
@[simp] theorem State.setHart_phase (s : State) (k : Nat) (h : Hart) : (s.setHart k h).phase = s.phase := rfl
@[simp] theorem State.setHart_schedule (s : State) (k : Nat) (h : Hart) : (s.setHart k h).schedule = s.schedule := rfl
@[simp] theorem State.setHart_round (s : State) (k : Nat) (h : Hart) : (s.setHart k h).round = s.round := rfl
@[simp] theorem State.setHart_current (s : State) (k : Nat) (h : Hart) : (s.setHart k h).current = s.current := rfl
@[simp] theorem State.setHart_ticksLeft (s : State) (k : Nat) (h : Hart) : (s.setHart k h).ticksLeft = s.ticksLeft := rfl
@[simp] theorem State.setHart_output (s : State) (k : Nat) (h : Hart) : (s.setHart k h).output = s.output := rfl

/-! ### `State.record` -/

@[simp] theorem State.record_params (s : State) (r : FaultRecord) : (s.record r).params = s.params := rfl
@[simp] theorem State.record_banks (s : State) (r : FaultRecord) : (s.record r).banks = s.banks := rfl
@[simp] theorem State.record_harts (s : State) (r : FaultRecord) : (s.record r).harts = s.harts := rfl
@[simp] theorem State.record_faults (s : State) (r : FaultRecord) : (s.record r).faults = s.faults ++ [r] := rfl
@[simp] theorem State.record_refused (s : State) (r : FaultRecord) : (s.record r).refused = s.refused := rfl
@[simp] theorem State.record_phase (s : State) (r : FaultRecord) : (s.record r).phase = s.phase := rfl
@[simp] theorem State.record_schedule (s : State) (r : FaultRecord) : (s.record r).schedule = s.schedule := rfl
@[simp] theorem State.record_round (s : State) (r : FaultRecord) : (s.record r).round = s.round := rfl
@[simp] theorem State.record_current (s : State) (r : FaultRecord) : (s.record r).current = s.current := rfl
@[simp] theorem State.record_ticksLeft (s : State) (r : FaultRecord) : (s.record r).ticksLeft = s.ticksLeft := rfl
@[simp] theorem State.record_output (s : State) (r : FaultRecord) : (s.record r).output = s.output := rfl

/-! ### `State.markRefused` -/

@[simp] theorem State.markRefused_params (s : State) : (s.markRefused).params = s.params := rfl
@[simp] theorem State.markRefused_banks (s : State) : (s.markRefused).banks = s.banks := rfl
@[simp] theorem State.markRefused_harts (s : State) : (s.markRefused).harts = s.harts := rfl
@[simp] theorem State.markRefused_faults (s : State) : (s.markRefused).faults = s.faults := rfl
@[simp] theorem State.markRefused_refused (s : State) : (s.markRefused).refused = true := rfl
@[simp] theorem State.markRefused_phase (s : State) : (s.markRefused).phase = s.phase := rfl
@[simp] theorem State.markRefused_schedule (s : State) : (s.markRefused).schedule = s.schedule := rfl
@[simp] theorem State.markRefused_round (s : State) : (s.markRefused).round = s.round := rfl
@[simp] theorem State.markRefused_current (s : State) : (s.markRefused).current = s.current := rfl
@[simp] theorem State.markRefused_ticksLeft (s : State) : (s.markRefused).ticksLeft = s.ticksLeft := rfl
@[simp] theorem State.markRefused_output (s : State) : (s.markRefused).output = s.output := rfl

/-! ### `State.setPhase` -/

@[simp] theorem State.setPhase_params (s : State) (p : Phase) : (s.setPhase p).params = s.params := rfl
@[simp] theorem State.setPhase_banks (s : State) (p : Phase) : (s.setPhase p).banks = s.banks := rfl
@[simp] theorem State.setPhase_harts (s : State) (p : Phase) : (s.setPhase p).harts = s.harts := rfl
@[simp] theorem State.setPhase_faults (s : State) (p : Phase) : (s.setPhase p).faults = s.faults := rfl
@[simp] theorem State.setPhase_refused (s : State) (p : Phase) : (s.setPhase p).refused = s.refused := rfl
@[simp] theorem State.setPhase_phase (s : State) (p : Phase) : (s.setPhase p).phase = p := rfl
@[simp] theorem State.setPhase_schedule (s : State) (p : Phase) : (s.setPhase p).schedule = s.schedule := rfl
@[simp] theorem State.setPhase_round (s : State) (p : Phase) : (s.setPhase p).round = s.round := rfl
@[simp] theorem State.setPhase_current (s : State) (p : Phase) : (s.setPhase p).current = s.current := rfl
@[simp] theorem State.setPhase_ticksLeft (s : State) (p : Phase) : (s.setPhase p).ticksLeft = s.ticksLeft := rfl
@[simp] theorem State.setPhase_output (s : State) (p : Phase) : (s.setPhase p).output = s.output := rfl

/-! ### `State.setSchedule` -/

@[simp] theorem State.setSchedule_params (s : State) (es : List Event) : (s.setSchedule es).params = s.params := rfl
@[simp] theorem State.setSchedule_banks (s : State) (es : List Event) : (s.setSchedule es).banks = s.banks := rfl
@[simp] theorem State.setSchedule_harts (s : State) (es : List Event) : (s.setSchedule es).harts = s.harts := rfl
@[simp] theorem State.setSchedule_faults (s : State) (es : List Event) : (s.setSchedule es).faults = s.faults := rfl
@[simp] theorem State.setSchedule_refused (s : State) (es : List Event) : (s.setSchedule es).refused = s.refused := rfl
@[simp] theorem State.setSchedule_phase (s : State) (es : List Event) : (s.setSchedule es).phase = s.phase := rfl
@[simp] theorem State.setSchedule_schedule (s : State) (es : List Event) : (s.setSchedule es).schedule = es := rfl
@[simp] theorem State.setSchedule_round (s : State) (es : List Event) : (s.setSchedule es).round = s.round := rfl
@[simp] theorem State.setSchedule_current (s : State) (es : List Event) : (s.setSchedule es).current = s.current := rfl
@[simp] theorem State.setSchedule_ticksLeft (s : State) (es : List Event) : (s.setSchedule es).ticksLeft = s.ticksLeft := rfl
@[simp] theorem State.setSchedule_output (s : State) (es : List Event) : (s.setSchedule es).output = s.output := rfl

/-! ### `State.setRound` -/

@[simp] theorem State.setRound_params (s : State) (r : List Nat) : (s.setRound r).params = s.params := rfl
@[simp] theorem State.setRound_banks (s : State) (r : List Nat) : (s.setRound r).banks = s.banks := rfl
@[simp] theorem State.setRound_harts (s : State) (r : List Nat) : (s.setRound r).harts = s.harts := rfl
@[simp] theorem State.setRound_faults (s : State) (r : List Nat) : (s.setRound r).faults = s.faults := rfl
@[simp] theorem State.setRound_refused (s : State) (r : List Nat) : (s.setRound r).refused = s.refused := rfl
@[simp] theorem State.setRound_phase (s : State) (r : List Nat) : (s.setRound r).phase = s.phase := rfl
@[simp] theorem State.setRound_schedule (s : State) (r : List Nat) : (s.setRound r).schedule = s.schedule := rfl
@[simp] theorem State.setRound_round (s : State) (r : List Nat) : (s.setRound r).round = r := rfl
@[simp] theorem State.setRound_current (s : State) (r : List Nat) : (s.setRound r).current = s.current := rfl
@[simp] theorem State.setRound_ticksLeft (s : State) (r : List Nat) : (s.setRound r).ticksLeft = s.ticksLeft := rfl
@[simp] theorem State.setRound_output (s : State) (r : List Nat) : (s.setRound r).output = s.output := rfl

/-! ### `State.setCurrent` -/

@[simp] theorem State.setCurrent_params (s : State) (k : Nat) : (s.setCurrent k).params = s.params := rfl
@[simp] theorem State.setCurrent_banks (s : State) (k : Nat) : (s.setCurrent k).banks = s.banks := rfl
@[simp] theorem State.setCurrent_harts (s : State) (k : Nat) : (s.setCurrent k).harts = s.harts := rfl
@[simp] theorem State.setCurrent_faults (s : State) (k : Nat) : (s.setCurrent k).faults = s.faults := rfl
@[simp] theorem State.setCurrent_refused (s : State) (k : Nat) : (s.setCurrent k).refused = s.refused := rfl
@[simp] theorem State.setCurrent_phase (s : State) (k : Nat) : (s.setCurrent k).phase = s.phase := rfl
@[simp] theorem State.setCurrent_schedule (s : State) (k : Nat) : (s.setCurrent k).schedule = s.schedule := rfl
@[simp] theorem State.setCurrent_round (s : State) (k : Nat) : (s.setCurrent k).round = s.round := rfl
@[simp] theorem State.setCurrent_current (s : State) (k : Nat) : (s.setCurrent k).current = k := rfl
@[simp] theorem State.setCurrent_ticksLeft (s : State) (k : Nat) : (s.setCurrent k).ticksLeft = s.ticksLeft := rfl
@[simp] theorem State.setCurrent_output (s : State) (k : Nat) : (s.setCurrent k).output = s.output := rfl

/-! ### `State.setTicksLeft` -/

@[simp] theorem State.setTicksLeft_params (s : State) (n : Option Nat) : (s.setTicksLeft n).params = s.params := rfl
@[simp] theorem State.setTicksLeft_banks (s : State) (n : Option Nat) : (s.setTicksLeft n).banks = s.banks := rfl
@[simp] theorem State.setTicksLeft_harts (s : State) (n : Option Nat) : (s.setTicksLeft n).harts = s.harts := rfl
@[simp] theorem State.setTicksLeft_faults (s : State) (n : Option Nat) : (s.setTicksLeft n).faults = s.faults := rfl
@[simp] theorem State.setTicksLeft_refused (s : State) (n : Option Nat) : (s.setTicksLeft n).refused = s.refused := rfl
@[simp] theorem State.setTicksLeft_phase (s : State) (n : Option Nat) : (s.setTicksLeft n).phase = s.phase := rfl
@[simp] theorem State.setTicksLeft_schedule (s : State) (n : Option Nat) : (s.setTicksLeft n).schedule = s.schedule := rfl
@[simp] theorem State.setTicksLeft_round (s : State) (n : Option Nat) : (s.setTicksLeft n).round = s.round := rfl
@[simp] theorem State.setTicksLeft_current (s : State) (n : Option Nat) : (s.setTicksLeft n).current = s.current := rfl
@[simp] theorem State.setTicksLeft_ticksLeft (s : State) (n : Option Nat) : (s.setTicksLeft n).ticksLeft = n := rfl
@[simp] theorem State.setTicksLeft_output (s : State) (n : Option Nat) : (s.setTicksLeft n).output = s.output := rfl

/-! ### `State.emit` -/

@[simp] theorem State.emit_params (s : State) (o : List Output) : (s.emit o).params = s.params := rfl
@[simp] theorem State.emit_banks (s : State) (o : List Output) : (s.emit o).banks = s.banks := rfl
@[simp] theorem State.emit_harts (s : State) (o : List Output) : (s.emit o).harts = s.harts := rfl
@[simp] theorem State.emit_faults (s : State) (o : List Output) : (s.emit o).faults = s.faults := rfl
@[simp] theorem State.emit_refused (s : State) (o : List Output) : (s.emit o).refused = s.refused := rfl
@[simp] theorem State.emit_phase (s : State) (o : List Output) : (s.emit o).phase = s.phase := rfl
@[simp] theorem State.emit_schedule (s : State) (o : List Output) : (s.emit o).schedule = s.schedule := rfl
@[simp] theorem State.emit_round (s : State) (o : List Output) : (s.emit o).round = s.round := rfl
@[simp] theorem State.emit_current (s : State) (o : List Output) : (s.emit o).current = s.current := rfl
@[simp] theorem State.emit_ticksLeft (s : State) (o : List Output) : (s.emit o).ticksLeft = s.ticksLeft := rfl
@[simp] theorem State.emit_output (s : State) (o : List Output) : (s.emit o).output = s.output ++ o := rfl

/-! ### The state after a fetch -/

@[simp] theorem State.afterFetch_params (s : State) (k : Nat) (h : Hart) (o : List Output) :
    (s.afterFetch k h o).params = s.params := rfl
@[simp] theorem State.afterFetch_banks (s : State) (k : Nat) (h : Hart) (o : List Output) :
    (s.afterFetch k h o).banks = s.banks := rfl
@[simp] theorem State.afterFetch_harts (s : State) (k : Nat) (h : Hart) (o : List Output) :
    (s.afterFetch k h o).harts = s.harts.set k h := rfl
@[simp] theorem State.afterFetch_faults (s : State) (k : Nat) (h : Hart) (o : List Output) :
    (s.afterFetch k h o).faults = s.faults := rfl
@[simp] theorem State.afterFetch_refused (s : State) (k : Nat) (h : Hart) (o : List Output) :
    (s.afterFetch k h o).refused = s.refused := rfl
@[simp] theorem State.afterFetch_phase (s : State) (k : Nat) (h : Hart) (o : List Output) :
    (s.afterFetch k h o).phase = s.phase := rfl
@[simp] theorem State.afterFetch_schedule (s : State) (k : Nat) (h : Hart) (o : List Output) :
    (s.afterFetch k h o).schedule = s.schedule := rfl
@[simp] theorem State.afterFetch_round (s : State) (k : Nat) (h : Hart) (o : List Output) :
    (s.afterFetch k h o).round = s.round := rfl
@[simp] theorem State.afterFetch_current (s : State) (k : Nat) (h : Hart) (o : List Output) :
    (s.afterFetch k h o).current = k := rfl
@[simp] theorem State.afterFetch_ticksLeft (s : State) (k : Nat) (h : Hart) (o : List Output) :
    (s.afterFetch k h o).ticksLeft = s.ticksLeft := rfl
@[simp] theorem State.afterFetch_output (s : State) (k : Nat) (h : Hart) (o : List Output) :
    (s.afterFetch k h o).output = s.output ++ o := rfl

/-! ### The driver's bookkeeping -/

@[simp] theorem State.countTick_params (s : State) (k : Nat) (rest : List Nat) :
    (s.countTick k rest).params = s.params := rfl
@[simp] theorem State.countTick_banks (s : State) (k : Nat) (rest : List Nat) :
    (s.countTick k rest).banks = s.banks := rfl
@[simp] theorem State.countTick_harts (s : State) (k : Nat) (rest : List Nat) :
    (s.countTick k rest).harts = s.harts := rfl
@[simp] theorem State.countTick_faults (s : State) (k : Nat) (rest : List Nat) :
    (s.countTick k rest).faults = s.faults := rfl
@[simp] theorem State.countTick_refused (s : State) (k : Nat) (rest : List Nat) :
    (s.countTick k rest).refused = s.refused := rfl
@[simp] theorem State.countTick_phase (s : State) (k : Nat) (rest : List Nat) :
    (s.countTick k rest).phase = s.phase := rfl
@[simp] theorem State.countTick_schedule (s : State) (k : Nat) (rest : List Nat) :
    (s.countTick k rest).schedule = s.schedule := rfl
@[simp] theorem State.countTick_round (s : State) (k : Nat) (rest : List Nat) :
    (s.countTick k rest).round = Driver.after s.params.driver k rest := rfl
@[simp] theorem State.countTick_current (s : State) (k : Nat) (rest : List Nat) :
    (s.countTick k rest).current = s.current := rfl
@[simp] theorem State.countTick_ticksLeft (s : State) (k : Nat) (rest : List Nat) :
    (s.countTick k rest).ticksLeft = s.ticksLeft.map (· - 1) := rfl
@[simp] theorem State.countTick_output (s : State) (k : Nat) (rest : List Nat) :
    (s.countTick k rest).output = s.output := rfl

/-! ### Harts -/

@[simp] theorem Hart.halt_id (h : Hart) : (h.halt).id = h.id := rfl
@[simp] theorem Hart.halt_pc (h : Hart) : (h.halt).pc = h.pc := rfl
@[simp] theorem Hart.halt_resetAddr (h : Hart) : (h.halt).resetAddr = h.resetAddr := rfl
@[simp] theorem Hart.halt_regs (h : Hart) : (h.halt).regs = h.regs := rfl
@[simp] theorem Hart.halt_ir (h : Hart) : (h.halt).ir = h.ir := rfl
@[simp] theorem Hart.halt_halted (h : Hart) : (h.halt).halted = true := rfl
@[simp] theorem Hart.reset_id (h : Hart) (r : Option Word) : (Hart.reset r h).id = h.id := rfl
@[simp] theorem Hart.reset_pc (h : Hart) (r : Option Word) : (Hart.reset r h).pc = r.getD h.resetAddr := rfl
@[simp] theorem Hart.reset_resetAddr (h : Hart) (r : Option Word) : (Hart.reset r h).resetAddr = r.getD h.resetAddr := rfl
@[simp] theorem Hart.reset_regs (h : Hart) (r : Option Word) : (Hart.reset r h).regs = RegisterFile.zero := rfl
@[simp] theorem Hart.reset_ir (h : Hart) (r : Option Word) : (Hart.reset r h).ir = 0x00000000#32 := rfl
@[simp] theorem Hart.reset_halted (h : Hart) (r : Option Word) : (Hart.reset r h).halted = false := rfl
@[simp] theorem Hart.fetched_id (h : Hart) (w : Word) : (h.fetched w).id = h.id := rfl
@[simp] theorem Hart.fetched_pc (h : Hart) (w : Word) : (h.fetched w).pc = h.pc + 4#32 := rfl
@[simp] theorem Hart.fetched_resetAddr (h : Hart) (w : Word) : (h.fetched w).resetAddr = h.resetAddr := rfl
@[simp] theorem Hart.fetched_regs (h : Hart) (w : Word) : (h.fetched w).regs = h.regs := rfl
@[simp] theorem Hart.fetched_ir (h : Hart) (w : Word) : (h.fetched w).ir = w := rfl
@[simp] theorem Hart.fetched_halted (h : Hart) (w : Word) : (h.fetched w).halted = h.halted := rfl
@[simp] theorem Hart.fetchedHalted_id (h : Hart) : (h.fetchedHalted).id = h.id := rfl
@[simp] theorem Hart.fetchedHalted_pc (h : Hart) : (h.fetchedHalted).pc = h.pc := rfl
@[simp] theorem Hart.fetchedHalted_resetAddr (h : Hart) : (h.fetchedHalted).resetAddr = h.resetAddr := rfl
@[simp] theorem Hart.fetchedHalted_regs (h : Hart) : (h.fetchedHalted).regs = h.regs := rfl
@[simp] theorem Hart.fetchedHalted_ir (h : Hart) : (h.fetchedHalted).ir = nopWord := rfl
@[simp] theorem Hart.fetchedHalted_halted (h : Hart) : (h.fetchedHalted).halted = h.halted := rfl
@[simp] theorem Hart.writeRegister_id (h : Hart) (i : Fin 32) (v : Word) : (h.writeRegister i v).id = h.id := rfl
@[simp] theorem Hart.writeRegister_pc (h : Hart) (i : Fin 32) (v : Word) : (h.writeRegister i v).pc = h.pc := rfl
@[simp] theorem Hart.writeRegister_resetAddr (h : Hart) (i : Fin 32) (v : Word) : (h.writeRegister i v).resetAddr = h.resetAddr := rfl
@[simp] theorem Hart.writeRegister_regs (h : Hart) (i : Fin 32) (v : Word) : (h.writeRegister i v).regs = h.regs.set i v := rfl
@[simp] theorem Hart.writeRegister_ir (h : Hart) (i : Fin 32) (v : Word) : (h.writeRegister i v).ir = h.ir := rfl
@[simp] theorem Hart.writeRegister_halted (h : Hart) (i : Fin 32) (v : Word) : (h.writeRegister i v).halted = h.halted := rfl
@[simp] theorem Hart.writePc_id (h : Hart) (v : Word) : (h.writePc v).id = h.id := rfl
@[simp] theorem Hart.writePc_pc (h : Hart) (v : Word) : (h.writePc v).pc = v := rfl
@[simp] theorem Hart.writePc_resetAddr (h : Hart) (v : Word) : (h.writePc v).resetAddr = h.resetAddr := rfl
@[simp] theorem Hart.writePc_regs (h : Hart) (v : Word) : (h.writePc v).regs = h.regs := rfl
@[simp] theorem Hart.writePc_ir (h : Hart) (v : Word) : (h.writePc v).ir = h.ir := rfl
@[simp] theorem Hart.writePc_halted (h : Hart) (v : Word) : (h.writePc v).halted = h.halted := rfl
@[simp] theorem Hart.construct_id (id : Nat) (r : Word) : (Hart.construct id r).id = id := rfl
@[simp] theorem Hart.construct_pc (id : Nat) (r : Word) : (Hart.construct id r).pc = r := rfl
@[simp] theorem Hart.construct_resetAddr (id : Nat) (r : Word) : (Hart.construct id r).resetAddr = r := rfl
@[simp] theorem Hart.construct_regs (id : Nat) (r : Word) : (Hart.construct id r).regs = RegisterFile.zero := rfl
@[simp] theorem Hart.construct_ir (id : Nat) (r : Word) : (Hart.construct id r).ir = 0x00000000#32 := rfl
@[simp] theorem Hart.construct_halted (id : Nat) (r : Word) : (Hart.construct id r).halted = false := rfl

/-! ### Banks -/

@[simp] theorem Bank.fresh_toBankEntry (e : BankEntry) : (Bank.fresh e).toBankEntry = e := rfl
@[simp] theorem Bank.fresh_cells (e : BankEntry) : (Bank.fresh e).cells = [] := rfl
@[simp] theorem Bank.setByte_toBankEntry (b : Bank) (a : Nat) (v : Byte) :
    (b.setByte a v).toBankEntry = b.toBankEntry := rfl
@[simp] theorem Bank.setByte_cells (b : Bank) (a : Nat) (v : Byte) :
    (b.setByte a v).cells = Cells.write b.cells a v := rfl

end Sys2Proof.Machine
end

