-- ==== Sys2Proof/Laws/Word.lean ====
section
/-! SUPPORT. The byte order: what the bytes of a word and the word of some bytes are, bit by bit. -/

namespace Sys2Proof

@[simp] theorem Word.toBytes_length (n : Nat) (w : Word) : (Word.toBytes n w).length = n := by
  induction n generalizing w with
  | zero => rfl
  | succ n ih => simp [Word.toBytes, ih]

/-- Byte `i` of a word is its bits `8i+7 : 8i`. -/
theorem Word.getElem_toBytes (n : Nat) (w : Word) (i : Nat) (h : i < (Word.toBytes n w).length) :
    (Word.toBytes n w)[i] = w.extractLsb' (8 * i) 8 := by
  induction n generalizing w i with
  | zero => simp at h
  | succ n ih =>
    cases i with
    | zero =>
      apply BitVec.eq_of_getLsbD_eq
      intro j hj
      simp [Word.toBytes, hj]
    | succ i =>
      simp only [Word.toBytes, List.getElem_cons_succ]
      rw [ih]
      apply BitVec.eq_of_getLsbD_eq
      intro j hj
      simp only [BitVec.getLsbD_extractLsb', hj, decide_true, Bool.true_and, BitVec.getLsbD_ushiftRight]
      congr 1
      omega

/-- Bit `j` of the word of some bytes is bit `j mod 8` of byte `j / 8`. -/
theorem Word.getLsbD_ofBytes (vs : List Byte) (j : Nat) (hj : j < 32) :
    (Word.ofBytes vs).getLsbD j = (vs.getD (j / 8) 0#8).getLsbD (j % 8) := by
  induction vs generalizing j with
  | nil => simp [Word.ofBytes]
  | cons v vs ih =>
    rw [Word.ofBytes, BitVec.getLsbD_or, BitVec.getLsbD_setWidth, BitVec.getLsbD_shiftLeft]
    by_cases h8 : j < 8
    · have : j / 8 = 0 := by omega
      simp [h8, hj, this, Nat.mod_eq_of_lt h8]
    · obtain ⟨i, rfl⟩ : ∃ i, j = i + 8 := ⟨j - 8, by omega⟩
      have hd : (i + 8) / 8 = i / 8 + 1 := by omega
      simp [hj, hd, ih i (by omega)]

/-- The word of a list of at least four bytes has those bytes. -/
theorem Word.extractLsb'_ofBytes (vs : List Byte) (i : Nat) (hi : i < 4) :
    (Word.ofBytes vs).extractLsb' (8 * i) 8 = vs.getD i 0#8 := by
  apply BitVec.eq_of_getLsbD_eq
  intro j hj
  have h1 : (8 * i + j) / 8 = i := by omega
  have h2 : (8 * i + j) % 8 = j := by omega
  simp only [BitVec.getLsbD_extractLsb', hj, decide_true, Bool.true_and]
  rw [Word.getLsbD_ofBytes vs _ (by omega), h1, h2]

/-- A word is determined by its four bytes. -/
theorem Word.ext_bytes {v w : Word} (h : ∀ i, i < 4 → v.extractLsb' (8 * i) 8 = w.extractLsb' (8 * i) 8) : v = w := by
  apply BitVec.eq_of_getLsbD_eq
  intro j hj
  have := congrArg (fun b : BitVec 8 => b.getLsbD (j % 8)) (h (j / 8) (by omega))
  have hm : j % 8 < 8 := by omega
  have hd : 8 * (j / 8) + j % 8 = j := by omega
  simpa [hm, hd] using this

theorem Word.ofBytes_toBytes (w : Word) : Word.ofBytes (Word.toBytes 4 w) = w := by
  apply Word.ext_bytes
  intro i hi
  rw [Word.extractLsb'_ofBytes _ i hi, List.getD_eq_getElem _ _ (by simpa using hi), Word.getElem_toBytes]

/-- The word of the low `n` bytes keeps the low `8n` bits. -/
theorem Word.ofBytes_toBytes_toNat (n : Nat) (hn : n ≤ 4) (w : Word) :
    (Word.ofBytes (Word.toBytes n w)).toNat = w.toNat % 2 ^ (8 * n) := by
  have h : Word.ofBytes (Word.toBytes n w) = (w.setWidth (8 * n)).setWidth 32 := by
    apply BitVec.eq_of_getLsbD_eq
    intro j hj
    rw [Word.getLsbD_ofBytes _ _ hj, BitVec.getLsbD_setWidth, BitVec.getLsbD_setWidth]
    by_cases hjn : j / 8 < n
    · have hm : j % 8 < 8 := by omega
      have hd : 8 * (j / 8) + j % 8 = j := by omega
      have hlt : j < 8 * n := by omega
      rw [List.getD_eq_getElem _ _ (by simpa using hjn), Word.getElem_toBytes]
      simp [hm, hd, hlt, hj]
    · have hge : ¬j < 8 * n := by omega
      rw [List.getD_eq_default _ _ (by simpa using hjn)]
      simp [hge]
  rw [h, BitVec.toNat_setWidth, BitVec.toNat_setWidth]
  apply Nat.mod_eq_of_lt
  calc w.toNat % 2 ^ (8 * n) < 2 ^ (8 * n) := Nat.mod_lt _ (Nat.two_pow_pos _)
    _ ≤ 2 ^ 32 := Nat.pow_le_pow_right (by omega) (by omega)

theorem Word.cons_toNat (v : Byte) (w : Word) (h : w.toNat < 2 ^ 24) :
    (v.setWidth 32 ||| (w <<< 8)).toNat = v.toNat + w.toNat * 2 ^ 8 := by
  have h1 : (w <<< 8).toNat = w.toNat * 2 ^ 8 := by
    rw [BitVec.toNat_shiftLeft, Nat.shiftLeft_eq, Nat.mod_eq_of_lt (by omega)]
  rw [BitVec.toNat_or, h1, BitVec.toNat_setWidth, Nat.mod_eq_of_lt (by omega), Nat.or_comm, Nat.mul_comm,
    ← Nat.two_pow_add_eq_or_of_lt v.isLt]
  omega

/-- The word of at most four bytes is their little-endian sum, below 256 to their number. -/
theorem Word.ofBytes_toNat (vs : List Byte) (h : vs.length ≤ 4) :
    (Word.ofBytes vs).toNat = ((List.range vs.length).map fun i => (vs.getD i 0#8).toNat * 2 ^ (8 * i)).sum ∧
      (Word.ofBytes vs).toNat < 2 ^ (8 * vs.length) := by
  induction vs with
  | nil => decide
  | cons v vs ih =>
    have hn : vs.length ≤ 3 := by simp at h; omega
    obtain ⟨e, hl⟩ := ih (by omega)
    have hlt : (Word.ofBytes vs).toNat < 2 ^ 24 :=
      lt_of_lt_of_le hl (Nat.pow_le_pow_right (by omega) (by omega))
    have hc := Word.cons_toNat v _ hlt
    have hv := v.isLt
    rw [Word.ofBytes, hc, List.length_cons]
    refine ⟨?_, by rw [Nat.mul_add, pow_add]; omega⟩
    rw [List.range_succ_eq_map, List.map_cons, List.sum_cons, List.map_map, e, ← List.sum_map_mul_right]
    simp [Function.comp_def, Nat.mul_add, pow_add, Nat.mul_assoc]

theorem Word.toBytes_ofBytes (b0 b1 b2 b3 : Byte) :
    Word.toBytes 4 (Word.ofBytes [b0, b1, b2, b3]) = [b0, b1, b2, b3] := by
  apply List.ext_getElem (by simp)
  intro i h1 h2
  rw [Word.getElem_toBytes, Word.extractLsb'_ofBytes _ i (by simpa using h2), List.getD_eq_getElem _ _ h2]

end Sys2Proof
end

