-- ==== Sys2Proof/Laws/Memory.lean ====
section
/-! SUPPORT. What the memory operations do: reading after writing, the canonical form every operation keeps, and the
topology entries no operation changes. -/

namespace Sys2Proof.Machine

/-! ## The cells of one bank -/

theorem Cells.wfFrom_mono {lo lo' : Nat} {cs : List Host.Cell} (hle : lo' ≤ lo)
    (h : Cells.wfFrom lo cs = true) : Cells.wfFrom lo' cs = true := by
  cases cs with
  | nil => rfl
  | cons c cs =>
    simp only [Cells.wfFrom, Bool.and_eq_true, decide_eq_true_eq] at h ⊢
    exact ⟨⟨by omega, h.1.2⟩, h.2⟩

/-- Below the lowest listed address nothing is listed. -/
theorem Cells.read_below {lo a : Nat} {cs : List Host.Cell} (h : Cells.wfFrom lo cs = true) (ha : a < lo) :
    Cells.read cs a = 0#8 := by
  induction cs generalizing lo with
  | nil => rfl
  | cons c cs ih =>
    simp only [Cells.wfFrom, Bool.and_eq_true, decide_eq_true_eq] at h
    rw [Cells.read, if_neg (by omega)]
    exact ih h.2 (by omega)

theorem Cells.read_write_same {lo : Nat} {cs : List Host.Cell} (h : Cells.wfFrom lo cs = true) (a : Nat) (v : Byte) :
    Cells.read (Cells.write cs a v) a = v := by
  induction cs generalizing lo with
  | nil => by_cases hv : v = 0#8 <;> simp [Cells.write, Cells.read, hv]
  | cons c cs ih =>
    simp only [Cells.wfFrom, Bool.and_eq_true, decide_eq_true_eq] at h
    have hb := Cells.read_below (cs := cs) (a := a) h.2
    rw [Cells.write]
    split_ifs with h1 h2 h3 h4
    · subst h2
      rw [Cells.read, if_neg (by omega)]
      exact hb (by omega)
    · simp [Cells.read]
    · subst h4
      exact hb (by omega)
    · simp [Cells.read]
    · rw [Cells.read, if_neg (by omega)]
      exact ih h.2

theorem Cells.read_write_other {lo : Nat} {cs : List Host.Cell} (h : Cells.wfFrom lo cs = true) {a x : Nat}
    (v : Byte) (hx : x ≠ a) : Cells.read (Cells.write cs a v) x = Cells.read cs x := by
  induction cs generalizing lo with
  | nil => by_cases hv : v = 0#8 <;> simp [Cells.write, Cells.read, hv, Ne.symm hx]
  | cons c cs ih =>
    simp only [Cells.wfFrom, Bool.and_eq_true, decide_eq_true_eq] at h
    rw [Cells.write]
    split_ifs with h1 h2 h3 h4
    · rfl
    · rw [Cells.read, if_neg (Ne.symm hx)]
    · exact (if_neg (by omega)).symm
    · rw [Cells.read, Cells.read, if_neg (Ne.symm hx), if_neg (by omega)]
    · rw [Cells.read, Cells.read, ih h.2]

/-- A write keeps the canonical form. -/
theorem Cells.wfFrom_write {lo a : Nat} {cs : List Host.Cell} (v : Byte) (h : Cells.wfFrom lo cs = true)
    (ha : lo ≤ a) : Cells.wfFrom lo (Cells.write cs a v) = true := by
  induction cs generalizing lo with
  | nil => by_cases hv : v = 0#8 <;> simp [Cells.write, Cells.wfFrom, hv, ha]
  | cons c cs ih =>
    simp only [Cells.wfFrom, Bool.and_eq_true, decide_eq_true_eq] at h
    rw [Cells.write]
    split_ifs with h1 h2 h3 h4
    · simp only [Cells.wfFrom, Bool.and_eq_true, decide_eq_true_eq]; exact h
    · simp only [Cells.wfFrom, Bool.and_eq_true, decide_eq_true_eq]
      exact ⟨⟨ha, by simpa using h2⟩, ⟨by omega, h.1.2⟩, h.2⟩
    · exact Cells.wfFrom_mono (by omega) h.2
    · simp only [Cells.wfFrom, Bool.and_eq_true, decide_eq_true_eq]
      subst h3
      exact ⟨⟨ha, by simpa using h4⟩, h.2⟩
    · simp only [Cells.wfFrom, Bool.and_eq_true, decide_eq_true_eq]
      exact ⟨h.1, ih h.2 (by omega)⟩

/-- Every cell of a write was listed before or is the written one. -/
theorem Cells.mem_write {a : Nat} {cs : List Host.Cell} {v : Byte} {c : Host.Cell}
    (hc : c ∈ Cells.write cs a v) : c ∈ cs ∨ c = (a, v) := by
  induction cs with
  | nil =>
    rw [Cells.write] at hc
    split_ifs at hc
    · exact .inl hc
    · exact .inr (by simpa using hc)
  | cons d cs ih =>
    rw [Cells.write] at hc
    split_ifs at hc
    all_goals simp only [List.mem_cons] at hc ⊢
    all_goals tauto

/-! ## One bank -/

theorem Bank.claims_iff (b : Bank) (a : Nat) :
    b.claims a = true ↔ b.base.toNat ≤ a ∧ a < b.base.toNat + b.size.toNat := by
  simp only [Bank.claims, Bool.and_eq_true, decide_eq_true_eq]
  rfl

@[simp] theorem Bank.setByte_claims (b : Bank) (a : Nat) (v : Byte) : (b.setByte a v).claims = b.claims := rfl

@[simp] theorem Bank.setByte_limit (b : Bank) (a : Nat) (v : Byte) : (b.setByte a v).limit = b.limit := rfl

theorem Bank.byteAt_setByte_same {b : Bank} (h : b.wf = true) (a : Nat) (v : Byte) :
    (b.setByte a v).byteAt a = v := by
  simp only [Bank.wf, Bool.and_eq_true] at h
  exact Cells.read_write_same h.1 a v

theorem Bank.byteAt_setByte_other {b : Bank} (h : b.wf = true) {a x : Nat} (v : Byte) (hx : x ≠ a) :
    (b.setByte a v).byteAt x = b.byteAt x := by
  simp only [Bank.wf, Bool.and_eq_true] at h
  exact Cells.read_write_other h.1 v hx

@[simp] theorem Bank.byteAt_fresh (e : BankEntry) (a : Nat) : (Bank.fresh e).byteAt a = 0#8 := rfl

theorem Bank.wf_fresh (e : BankEntry) : (Bank.fresh e).wf = true := rfl

theorem Bank.wf_setByte {b : Bank} {a : Nat} (v : Byte) (h : b.wf = true) (ha : b.claims a = true) :
    (b.setByte a v).wf = true := by
  rw [Bank.claims_iff] at ha
  simp only [Bank.wf, Bool.and_eq_true, List.all_eq_true, decide_eq_true_eq] at h ⊢
  refine ⟨Cells.wfFrom_write v h.1 ha.1, fun c hc => ?_⟩
  rcases Cells.mem_write hc with hc | rfl
  · exact h.2 c hc
  · exact ha.2

@[simp] theorem Bank.writeBytes_toBankEntry (vs : List Byte) (b : Bank) (a : Nat) :
    (b.writeBytes a vs).1.toBankEntry = b.toBankEntry := by
  induction vs generalizing b a with
  | nil => rfl
  | cons v vs ih =>
    rw [Bank.writeBytes]
    split
    · rw [ih]; rfl
    · rfl

theorem Bank.wf_writeBytes (vs : List Byte) {b : Bank} (a : Nat) (h : b.wf = true) :
    (b.writeBytes a vs).1.wf = true := by
  induction vs generalizing b a with
  | nil => exact h
  | cons v vs ih =>
    rw [Bank.writeBytes]
    split
    · exact ih _ (Bank.wf_setByte v h ‹_›)
    · exact h

@[simp] theorem Bank.write_toBankEntry (b : Bank) (a : Nat) (n : Width) (v : Word) :
    (b.write a n v).1.toBankEntry = b.toBankEntry := Bank.writeBytes_toBankEntry _ _ _

theorem Bank.wf_write {b : Bank} (a : Nat) (n : Width) (v : Word) (h : b.wf = true) :
    (b.write a n v).1.wf = true := Bank.wf_writeBytes _ _ h

/-- What a bank claims depends on its topology entry alone. -/
theorem Bank.claims_congr {b c : Bank} (h : b.toBankEntry = c.toBankEntry) : b.claims = c.claims := by
  funext a
  rw [Bool.eq_iff_iff, Bank.claims_iff, Bank.claims_iff, h]

/-! ## The collection -/

theorem Memory.wf_iff (m : Memory) : Memory.wf m = true ↔ ∀ b ∈ m, b.wf = true := by
  simp [Memory.wf, List.all_eq_true]

theorem Memory.select_mem {m : Memory} {a : Nat} {b : Bank} (h : Memory.select m a = some b) :
    b ∈ m ∧ b.claims a = true :=
  ⟨List.mem_of_find?_eq_some h, List.find?_some (p := fun b : Bank => b.claims a) h⟩

theorem Memory.select_none_iff (m : Memory) (a : Nat) :
    Memory.select m a = none ↔ ∀ b ∈ m, b.claims a = false := by
  simp [Memory.select]

theorem Memory.wf_replace {m : Memory} {b : Bank} (a : Nat) (hm : Memory.wf m = true) (hb : b.wf = true) :
    Memory.wf (Memory.replace m a b) = true := by
  rw [Memory.wf_iff] at hm ⊢
  induction m with
  | nil => simp [Memory.replace]
  | cons c m ih =>
    rw [List.forall_mem_cons] at hm
    rw [Memory.replace]
    split
    · exact List.forall_mem_cons.2 ⟨hb, hm.2⟩
    · exact List.forall_mem_cons.2 ⟨hm.1, ih hm.2⟩

/-- Replacing the selected bank by one with the same topology entry changes no topology entry. -/
theorem Memory.entries_replace {m : Memory} {a : Nat} {b c : Bank} (hs : Memory.select m a = some b)
    (hc : c.toBankEntry = b.toBankEntry) :
    (Memory.replace m a c).map (·.toBankEntry) = m.map (·.toBankEntry) := by
  induction m with
  | nil => rfl
  | cons d m ih =>
    rw [Memory.replace]
    cases hd : d.claims a with
    | true =>
      have : d = b := by simpa [Memory.select, List.find?, hd] using hs
      simp [this, hc]
    | false =>
      have := ih (by simpa [Memory.select, List.find?, hd] using hs)
      simpa using this

/-- Which bank is selected after the selected bank of `a` is replaced by one with the same topology entry. -/
theorem Memory.select_replace {m : Memory} {a : Nat} {b c : Bank} (hs : Memory.select m a = some b)
    (hc : c.toBankEntry = b.toBankEntry) (x : Nat) :
    Memory.select (Memory.replace m a c) x = some c ∧ Memory.select m x = some b ∨
      Memory.select (Memory.replace m a c) x = Memory.select m x := by
  have hcl := Bank.claims_congr hc
  induction m with
  | nil => exact .inr rfl
  | cons d m ih =>
    cases hd : d.claims a with
    | true =>
      obtain rfl : d = b := by simpa [Memory.select, List.find?, hd] using hs
      cases hx : d.claims x with
      | true => exact .inl (by simp [Memory.select, Memory.replace, List.find?, hd, hx, hcl])
      | false => exact .inr (by simp [Memory.select, Memory.replace, List.find?, hd, hx, hcl])
    | false =>
      have ih := ih (by simpa [Memory.select, List.find?, hd] using hs)
      cases hx : d.claims x with
      | true => exact .inr (by simp [Memory.select, Memory.replace, List.find?, hd, hx])
      | false => simpa [Memory.select, Memory.replace, List.find?, hd, hx] using ih

/-- At `a` itself the replaced bank is selected. -/
theorem Memory.select_replace_self {m : Memory} {a : Nat} {b c : Bank} (hs : Memory.select m a = some b)
    (hc : c.toBankEntry = b.toBankEntry) : Memory.select (Memory.replace m a c) a = some c := by
  have hcl := Bank.claims_congr hc
  induction m with
  | nil => simp [Memory.select] at hs
  | cons d m ih =>
    cases hd : d.claims a with
    | true =>
      obtain rfl : d = b := by simpa [Memory.select, List.find?, hd] using hs
      simp [Memory.select, Memory.replace, hd, hcl]
    | false =>
      have ih := ih (by simpa [Memory.select, List.find?, hd] using hs)
      simpa [Memory.select, Memory.replace, List.find?, hd] using ih

/-! ## Every memory operation keeps the canonical form and the topology entries -/

theorem Memory.hostWrite_ok {m m' : Memory} {a : Nat} {v : Byte} (h : Memory.hostWrite m a v = .ok m') :
    ∃ b, Memory.select m a = some b ∧ m' = Memory.replace m a (b.setByte a v) := by
  unfold Memory.hostWrite at h
  split at h
  · exact absurd h (by simp)
  · exact ⟨_, ‹_›, by simpa using h.symm⟩

theorem Memory.wf_hostWrite {m m' : Memory} {a : Nat} {v : Byte} (hm : Memory.wf m = true)
    (h : Memory.hostWrite m a v = .ok m') : Memory.wf m' = true := by
  obtain ⟨b, hs, rfl⟩ := Memory.hostWrite_ok h
  have hb := Memory.select_mem hs
  exact Memory.wf_replace a hm (Bank.wf_setByte v ((Memory.wf_iff m).1 hm b hb.1) hb.2)

theorem Memory.entries_hostWrite {m m' : Memory} {a : Nat} {v : Byte} (h : Memory.hostWrite m a v = .ok m') :
    m'.map (·.toBankEntry) = m.map (·.toBankEntry) := by
  obtain ⟨b, hs, rfl⟩ := Memory.hostWrite_ok h
  exact Memory.entries_replace hs rfl

/-- Everything a hart's store can do: it faults before any byte and changes nothing, or it stores in the bank
`Decode(a)` selects. -/
theorem Memory.write_cases (p : Params) (m : Memory) (a : Word) (n : Width) (v : Word) :
    (∃ f, m.route p a .store = .error f ∧ m.write p a n v = (m, some f)) ∨
    (∃ b, m.route p a .store = .ok b ∧ m.select a.toNat = some b ∧
      m.write p a n v = (m.replace a.toNat (b.write a.toNat n v).1, (b.write a.toNat n v).2)) := by
  unfold Memory.write
  cases hr : m.route p a .store with
  | error f => exact .inl ⟨f, rfl, rfl⟩
  | ok b =>
    refine .inr ⟨b, rfl, ?_, rfl⟩
    unfold Memory.route at hr
    split at hr
    · exact absurd hr (by simp)
    · split at hr
      · exact absurd hr (by simp)
      · simpa using ‹m.select a.toNat = some _›.trans (congrArg some (Except.ok.inj hr))

theorem Memory.wf_write {m : Memory} (p : Params) (a : Word) (n : Width) (v : Word) (hm : Memory.wf m = true) :
    Memory.wf (m.write p a n v).1 = true := by
  rcases Memory.write_cases p m a n v with ⟨f, -, h⟩ | ⟨b, -, hs, h⟩
  · rw [h]; exact hm
  · rw [h]
    exact Memory.wf_replace _ hm (Bank.wf_write _ n v ((Memory.wf_iff m).1 hm b (Memory.select_mem hs).1))

theorem Memory.entries_write (m : Memory) (p : Params) (a : Word) (n : Width) (v : Word) :
    (m.write p a n v).1.map (·.toBankEntry) = m.map (·.toBankEntry) := by
  rcases Memory.write_cases p m a n v with ⟨f, -, h⟩ | ⟨b, -, hs, h⟩
  · rw [h]
  · rw [h]; exact Memory.entries_replace hs (Bank.write_toBankEntry b _ n v)

theorem wf_placeBytes (vs : List Byte) (a : Nat) {m : Memory} (hm : Memory.wf m = true) :
    Memory.wf (placeBytes a vs m).1 = true := by
  induction vs generalizing a m with
  | nil => exact hm
  | cons v vs ih =>
    rw [placeBytes]
    split
    · exact hm
    · split
      · exact hm
      · exact ih _ (Memory.wf_hostWrite hm ‹_›)

theorem entries_placeBytes (vs : List Byte) (a : Nat) (m : Memory) :
    (placeBytes a vs m).1.map (·.toBankEntry) = m.map (·.toBankEntry) := by
  induction vs generalizing a m with
  | nil => rfl
  | cons v vs ih =>
    rw [placeBytes]
    split
    · rfl
    · split
      · rfl
      · rw [ih, Memory.entries_hostWrite ‹_›]

theorem wf_placeSegments (img : List Byte) (hs : List ProgramHeader) {m : Memory} (hm : Memory.wf m = true) :
    Memory.wf (placeSegments img hs m).1 = true := by
  induction hs generalizing m with
  | nil => exact hm
  | cons h hs ih =>
    have h1 := wf_placeBytes (h.bytes img) h.paddr hm
    rw [placeSegments]
    split
    · rename_i m' heq; rw [heq] at h1; exact ih h1
    · rename_i m' f heq; rw [heq] at h1; exact h1

theorem entries_placeSegments (img : List Byte) (hs : List ProgramHeader) (m : Memory) :
    (placeSegments img hs m).1.map (·.toBankEntry) = m.map (·.toBankEntry) := by
  induction hs generalizing m with
  | nil => rfl
  | cons h hs ih =>
    have h1 := entries_placeBytes (h.bytes img) h.paddr m
    rw [placeSegments]
    split
    · rename_i m' heq; rw [heq] at h1; rw [ih]; exact h1
    · rename_i m' f heq; rw [heq] at h1; exact h1

/-- Everything the loader can do: a `FormatError` with nothing stored, or the placement of the eligible segments. -/
theorem load_cases (p : Params) (img : List Byte) (m : Memory) :
    (∃ r, checkImage p img = some r ∧ load p img m = (m, .error (.formatError r))) ∨
    (checkImage p img = none ∧ ∃ m', placeSegments img (eligibleSegments p img) m = (m', none) ∧
      load p img m = (m', .ok (elfEntry img))) ∨
    (checkImage p img = none ∧ ∃ m' f, placeSegments img (eligibleSegments p img) m = (m', some f) ∧
      load p img m = (m', .error f)) := by
  unfold load
  cases hc : checkImage p img with
  | some r => exact .inl ⟨r, rfl, rfl⟩
  | none =>
    rcases hp : placeSegments img (eligibleSegments p img) m with ⟨m', _ | f⟩
    · exact .inr (.inl ⟨rfl, m', rfl, rfl⟩)
    · exact .inr (.inr ⟨rfl, m', f, rfl, rfl⟩)

theorem wf_load (p : Params) (img : List Byte) {m : Memory} (hm : Memory.wf m = true) :
    Memory.wf (load p img m).1 = true := by
  have h1 := wf_placeSegments img (eligibleSegments p img) hm
  rcases load_cases p img m with ⟨r, -, h⟩ | ⟨-, m', hp, h⟩ | ⟨-, m', f, hp, h⟩
  · rw [h]; exact hm
  · rw [h]; rw [hp] at h1; exact h1
  · rw [h]; rw [hp] at h1; exact h1

theorem entries_load (p : Params) (img : List Byte) (m : Memory) :
    (load p img m).1.map (·.toBankEntry) = m.map (·.toBankEntry) := by
  have h1 := entries_placeSegments img (eligibleSegments p img) m
  rcases load_cases p img m with ⟨r, -, h⟩ | ⟨-, m', hp, h⟩ | ⟨-, m', f, hp, h⟩
  · rw [h]
  · rw [h]; rw [hp] at h1; exact h1
  · rw [h]; rw [hp] at h1; exact h1

theorem wf_placeAt {m : Memory} (pc : Word) (vs : List Byte) (hm : Memory.wf m = true) :
    Memory.wf (m.placeAt pc vs) = true := by
  unfold Memory.placeAt
  split
  · exact hm
  · rename_i b hs
    exact Memory.wf_replace _ hm (Bank.wf_writeBytes vs _ ((Memory.wf_iff m).1 hm b (Memory.select_mem hs).1))

/-- Freshly created banks are in canonical form. -/
theorem wf_freshBanks (es : List BankEntry) : Memory.wf (es.map Bank.fresh) = true := by
  simp [Memory.wf_iff, Bank.wf_fresh]

/-- The reset state's memory is in canonical form. -/
theorem reset_memory_wf : Memory.wf State.reset.banks = true := wf_freshBanks _

end Sys2Proof.Machine
end

