-- ==== Sys2Proof/Laws/Loader.lean ====
section
/-! SUPPORT. What the loader's checks and its placement can do, said once, and its fields as the file's bytes. -/

namespace Sys2Proof.Machine

/-! ## Fields of the file -/

theorem ofBytes_imageByte (img : List Byte) (o n : Nat) (hn : n ≤ 4) :
    (Word.ofBytes ((List.range n).map fun i => imageByte img (o + i))).toNat = fileNat img o n := by
  rw [(Word.ofBytes_toNat _ (by simpa using hn)).1, List.length_map, List.length_range, fileNat]
  congr 1
  apply List.map_congr_left
  intro i hi
  rw [List.mem_range] at hi
  rw [List.getD_eq_getElem _ _ (by simpa using hi), List.getElem_map, List.getElem_range, imageByte]

theorem le32_eq (img : List Byte) (o : Nat) : le32 img o = fileNat img o 4 :=
  ofBytes_imageByte img o 4 (le_refl 4)

theorem le16_eq (img : List Byte) (o : Nat) : le16 img o = fileNat img o 2 :=
  ofBytes_imageByte img o 2 (by decide)

theorem le32Word_eq (img : List Byte) (o : Nat) : le32Word img o = BitVec.ofNat 32 (fileNat img o 4) := by
  rw [← le32_eq, le32, BitVec.ofNat_toNat, BitVec.setWidth_eq]

/-- The checks of the header pass exactly where the file is sound (R88). -/
theorem checkHeader_none_iff (p : Params) (img : List Byte) : checkHeader p img = none ↔ HeaderSound p img := by
  unfold HeaderSound fileHeaderAt checkHeader
  simp only [elfPhnum, elfPhoff, elfPhentsize, le16_eq, le32_eq]
  by_cases h1 : img.length < 52
  · simp [h1]
  · rw [if_neg h1, imageByte, imageByte, List.getD_eq_getElem?_getD, List.getD_eq_getElem?_getD,
      List.getElem?_eq_getElem (show 4 < img.length by omega), List.getElem?_eq_getElem (show 5 < img.length by omega)]
    simp only [Option.getD_some, Option.some.injEq]
    have h52 : 52 ≤ img.length := by omega
    split_ifs <;> simp_all

/-- All checks pass exactly where the image is sound (R89). -/
theorem checkImage_none_iff (p : Params) (img : List Byte) : checkImage p img = none ↔ ImageSound p img := by
  unfold checkImage ImageSound
  rw [← checkHeader_none_iff]
  cases checkHeader p img with
  | some r => simp
  | none => simp [ProgramHeader.truncated]

/-! ## Placement -/

/-- Which addresses can be placed depends on the topology entries alone. -/
theorem placeable_congr {m m' : Memory} (h : m'.map (·.toBankEntry) = m.map (·.toBankEntry)) (a : Nat) :
    Placeable m' a ↔ Placeable m a := by
  have key : ∀ m m' : Memory, m'.map (·.toBankEntry) = m.map (·.toBankEntry) → Placeable m' a → Placeable m a := by
    rintro m m' h ⟨ha, b, hb, hc⟩
    obtain ⟨c, hm, e⟩ := List.mem_map.1 (h ▸ List.mem_map_of_mem (f := Bank.toBankEntry) hb)
    exact ⟨ha, c, hm, by rw [Bank.claims_congr e]; exact hc⟩
  exact ⟨key _ _ h, key _ _ h.symm⟩

/-- Everything a host byte write can do: it stores where some bank claims the address, and else faults there. -/
theorem hostWrite_cases (m : Memory) (a : Nat) (v : Byte) :
    (∃ m', m.hostWrite a v = .ok m' ∧ ∃ b ∈ m, b.claims a = true) ∨
    (m.hostWrite a v = .error (.outOfBounds a) ∧ ∀ b ∈ m, b.claims a = false) := by
  unfold Memory.hostWrite
  cases hs : m.select a with
  | none => exact .inr ⟨rfl, (Memory.select_none_iff m a).1 hs⟩
  | some b => exact .inl ⟨_, rfl, b, Memory.select_mem hs⟩

/-- Everything the placement of bytes can do: all of them are placed, every address being placeable; or it stops at the
first address that is not, having placed the bytes before it. -/
theorem placeBytes_cases (vs : List Byte) (a : Nat) (m : Memory) :
    (∃ m', placeBytes a vs m = (m', none) ∧ ∀ x, a ≤ x → x < a + vs.length → Placeable m x) ∨
    (∃ m' n, placeBytes a vs m = (m', some (.outOfBounds (a + n))) ∧ n < vs.length ∧ ¬Placeable m (a + n) ∧
      (∀ x, a ≤ x → x < a + n → Placeable m x) ∧ placeBytes a (vs.take n) m = (m', none)) := by
  induction vs generalizing a m with
  | nil => exact .inl ⟨m, rfl, fun x h1 h2 => by simp at h2; omega⟩
  | cons v vs ih =>
    by_cases hlt : 2 ^ 32 ≤ a
    · exact .inr ⟨m, 0, by rw [placeBytes, if_pos hlt]; rfl, by simp, fun h => absurd h.1 (by omega),
        fun x h1 h2 => by omega, rfl⟩
    · rcases hostWrite_cases m a v with ⟨m2, hw, hb⟩ | ⟨hw, hb⟩
      · have hy : Placeable m a := ⟨by omega, hb⟩
        have he := Memory.entries_hostWrite hw
        have up : ∀ k, (∀ x, a + 1 ≤ x → x < k → Placeable m2 x) → ∀ x, a ≤ x → x < k → Placeable m x :=
          fun k h x h1 h2 => by
            rcases Nat.eq_or_lt_of_le h1 with rfl | h1
            · exact hy
            · exact (placeable_congr he x).1 (h x h1 h2)
        simp only [placeBytes, if_neg hlt, hw]
        rcases ih (a + 1) m2 with ⟨m', e, h⟩ | ⟨m', n, e, h1, h2, h3, h4⟩
        · exact .inl ⟨m', e, up _ fun x h1 h2 => h x h1 (by simp at h2; omega)⟩
        · have ea : a + 1 + n = a + (n + 1) := by omega
          rw [ea] at e h2 h3
          refine .inr ⟨m', n + 1, e, by simpa using h1, fun h => h2 ((placeable_congr he _).2 h), up _ h3, ?_⟩
          rw [List.take_succ_cons, placeBytes, if_neg hlt, hw]
          exact h4
      · exact .inr ⟨m, 0, by simp only [placeBytes, if_neg hlt, hw]; rfl, by simp,
          fun ⟨_, b, hm, hc⟩ => by simp [hb b hm] at hc, fun x h1 h2 => by omega, rfl⟩

theorem ProgramHeader.bytes_length {img : List Byte} {h : ProgramHeader} (hl : h.offset + h.filesz ≤ img.length) :
    (h.bytes img).length = h.filesz := by
  simp [ProgramHeader.bytes]; omega

/-- Everything the placement of segments can do: all are placed, every address they cover being placeable; or it stops at
the first address that is not, having placed the segments before it and its own up to that address (R93, R95). -/
theorem placeSegments_cases (img : List Byte) (hs : List ProgramHeader) (m : Memory)
    (hl : ∀ h ∈ hs, h.offset + h.filesz ≤ img.length) :
    (∃ m', placeSegments img hs m = (m', none) ∧ ∀ h ∈ hs, ∀ a, h.covers a → Placeable m a) ∨
    (∃ m' x pre h post, placeSegments img hs m = (m', some (.outOfBounds x)) ∧ hs = pre ++ h :: post ∧ h.covers x ∧
      ¬Placeable m x ∧ (∀ a, h.covers a → a < x → Placeable m a) ∧ (∀ g ∈ pre, ∀ a, g.covers a → Placeable m a) ∧
      placeSegments img (pre ++ [{ h with filesz := x - h.paddr }]) m = (m', none)) := by
  induction hs generalizing m with
  | nil => exact .inl ⟨m, rfl, by simp⟩
  | cons s hs ih =>
    have hlen := ProgramHeader.bytes_length (hl s (by simp))
    have he := entries_placeBytes (s.bytes img) s.paddr m
    rw [placeSegments]
    rcases placeBytes_cases (s.bytes img) s.paddr m with ⟨m2, e, h⟩ | ⟨m2, n, e, h1, h2, h3, h4⟩
    · rw [hlen] at h
      rw [e] at he ⊢
      have first : ∀ a, s.covers a → Placeable m a := fun a ha => h a ha.1 ha.2
      rcases ih m2 (fun g hg => hl g (List.mem_cons_of_mem _ hg)) with
        ⟨m', e', h'⟩ | ⟨m', x, pre, g, post, e', rfl, g1, g2, g3, g4, g5⟩
      · exact .inl ⟨m', e', List.forall_mem_cons.2
          ⟨first, fun g hg a ha => (placeable_congr he a).1 (h' g hg a ha)⟩⟩
      · refine .inr ⟨m', x, s :: pre, g, post, e', rfl, g1, fun hx => g2 ((placeable_congr he x).2 hx),
          fun a ha hx => (placeable_congr he a).1 (g3 a ha hx), List.forall_mem_cons.2
          ⟨first, fun g' hg a ha => (placeable_congr he a).1 (g4 g' hg a ha)⟩, ?_⟩
        rw [List.cons_append, placeSegments, e]
        exact g5
    · rw [hlen] at h1
      rw [e]
      refine .inr ⟨m2, s.paddr + n, [], s, hs, rfl, rfl, ⟨by omega, by omega⟩, h2, fun a ha hx => h3 a ha.1 hx,
        by simp, ?_⟩
      have : ProgramHeader.bytes img { s with filesz := s.paddr + n - s.paddr } = (s.bytes img).take n := by
        simp [ProgramHeader.bytes, List.take_take, Nat.min_eq_left (show n ≤ s.filesz by omega)]
      rw [List.nil_append, placeSegments, this]
      simp only [h4, placeSegments]

end Sys2Proof.Machine
end

