-- ==== Sys2Proof/Laws/PerInstr.lean ====
section
/-! SUPPORT. Statements made per constructor of `Instr`. -/

namespace Sys2Proof.Laws

/-- The no-op's word belongs to the no-op alone (spec/30_encoding.md R63, R66): of the well-formed descriptors only
`nop` is encoded as it. -/
def NopWord.Statement (i : Instr) : Prop :=
  i.WellFormed → (encode i = nopWord ↔ i = .nop)

theorem NopWord.nop : NopWord.Statement .nop := fun _ => ⟨fun _ => rfl, fun _ => rfl⟩

theorem NopWord.unclassified (w : Word) : NopWord.Statement (.unclassified w) := fun h =>
  ⟨fun e => absurd e (bne_iff_ne.1 h), fun e => by cases e⟩

end Sys2Proof.Laws
end

