-- ==== Sys2Proof/Laws/Step.lean ====
section
/-! SUPPORT. What a tick and a step can do, said once: the outcomes of the shared operations and the moves by which a
step reaches a next state. -/

namespace Sys2Proof.Machine

/-! ## Outcomes of the shared operations -/

@[simp] theorem Result.andThen_next (s : State) (f : State → Result) : Result.andThen (.next s) f = f s := rfl

@[simp] theorem Result.andThen_fault (e : Fault) (f : State → Result) : Result.andThen (.fault e) f = .fault e := rfl

@[simp] theorem Result.andThen_refused (e : Refusal) (f : State → Result) :
    Result.andThen (.refused e) f = .refused e := rfl

theorem Result.andThen_skip (r : Result) : r.andThen skip = r := by cases r <;> rfl

theorem raiseHost_not_next (f : FaultKind) (s t : State) : raiseHost f s ≠ .next t := by
  intro h; cases h

/-- Everything `raise` can do. -/
theorem raise_cases (k : Nat) (f : FaultKind) (s : State) :
    (s.harts[k]? = none ∧ raise k f s = .refused (.noSuchHart k)) ∨
    (∃ h, s.harts[k]? = some h ∧ s.params.faultScope = .terminateSimulation ∧
      raise k f s = .fault (.raised ⟨f, .hart h.id⟩ (s.record ⟨f, .hart h.id⟩))) ∨
    (∃ h, s.harts[k]? = some h ∧ s.params.faultScope = .haltHart ∧
      raise k f s = .next ((s.record ⟨f, .hart h.id⟩).setHart k h.halt)) := by
  unfold raise
  cases hk : s.harts[k]? with
  | none => exact .inl ⟨rfl, rfl⟩
  | some h =>
    cases hs : s.params.faultScope with
    | terminateSimulation => exact .inr (.inl ⟨h, rfl, rfl, rfl⟩)
    | haltHart => exact .inr (.inr ⟨h, rfl, rfl, rfl⟩)

/-- Everything the execute stage of an unclassified word can do. -/
theorem executeUnclassified_cases (w : Word) (s : State) :
    (s.params.unclassifiedPolicy = .scaffoldNoop ∧ executeUnclassified w s = .next s) ∨
    (s.params.unclassifiedPolicy = .refuse ∧ s.harts[s.current]? = none ∧
      executeUnclassified w s = .refused (.noSuchHart s.current)) ∨
    (s.params.unclassifiedPolicy = .refuse ∧ ∃ h, s.harts[s.current]? = some h ∧
      executeUnclassified w s = .refused (.unclassifiedWord w (h.pc - 4#32) s.markRefused)) := by
  unfold executeUnclassified
  cases hp : s.params.unclassifiedPolicy with
  | scaffoldNoop => exact .inl ⟨rfl, rfl⟩
  | refuse =>
    cases hk : s.harts[s.current]? with
    | none => exact .inr (.inl ⟨rfl, rfl, rfl⟩)
    | some h => exact .inr (.inr ⟨rfl, h, rfl, rfl⟩)

theorem execUnclassified_eq (w : Word) (s : State) : execUnclassified w s = executeUnclassified w s := by
  unfold execUnclassified
  exact (Result.andThen_skip _).trans (Result.andThen_skip _)

/-- Everything `fetch` can do. -/
theorem fetch_cases (p : Params) (m : Memory) (h : Hart) :
    (h.halted = true ∧ fetch p m h = .ok (h.fetchedHalted, [])) ∨
    (h.halted = false ∧ ∃ w, fetchWord p m h = .ok w ∧ fetch p m h = .ok (h.fetched w, traceOf p h w)) ∨
    (h.halted = false ∧ ∃ f, fetchWord p m h = .error f ∧ fetch p m h = .error f) := by
  unfold fetch
  cases hh : h.halted with
  | true => exact .inl ⟨rfl, rfl⟩
  | false =>
    cases hw : fetchWord p m h with
    | ok w => exact .inr (.inl ⟨rfl, w, rfl, by simp⟩)
    | error f => exact .inr (.inr ⟨rfl, f, rfl, by simp⟩)

/-- Everything a tick can do: no such hart, a fault of its fetch raised, or the decoded instruction executed on the
state the fetch leaves. -/
theorem tick_cases (k : Nat) (s : State) :
    (s.harts[k]? = none ∧ tick k s = .refused (.noSuchHart k)) ∨
    (∃ h f, s.harts[k]? = some h ∧ fetch s.params s.banks h = .error f ∧ tick k s = raise k f s) ∨
    (∃ h h' o, s.harts[k]? = some h ∧ fetch s.params s.banks h = .ok (h', o) ∧
      tick k s = exec (decode h'.ir) (s.afterFetch k h' o)) := by
  unfold tick
  cases hk : s.harts[k]? with
  | none => exact .inl ⟨rfl, rfl⟩
  | some h =>
    rcases hf : fetch s.params s.banks h with f | ⟨h', o⟩
    · exact .inr (.inl ⟨h, f, rfl, hf, by simp [hf]⟩)
    · exact .inr (.inr ⟨h, h', o, rfl, hf, by simp [hf]⟩)

/-! ## The moves of the system -/

/-- `s` with the model's scheduling fields set anew: what a step does before it ticks a hart. -/
def State.rescheduled (s : State) (es : List Event) (r : List Nat) (n : Option Nat) : State :=
  ((s.setSchedule es).setRound r).setTicksLeft n

@[simp] theorem State.rescheduled_params (s : State) (es r n) : (s.rescheduled es r n).params = s.params := rfl
@[simp] theorem State.rescheduled_banks (s : State) (es r n) : (s.rescheduled es r n).banks = s.banks := rfl
@[simp] theorem State.rescheduled_harts (s : State) (es r n) : (s.rescheduled es r n).harts = s.harts := rfl
@[simp] theorem State.rescheduled_faults (s : State) (es r n) : (s.rescheduled es r n).faults = s.faults := rfl
@[simp] theorem State.rescheduled_refused (s : State) (es r n) : (s.rescheduled es r n).refused = s.refused := rfl
@[simp] theorem State.rescheduled_phase (s : State) (es r n) : (s.rescheduled es r n).phase = s.phase := rfl
@[simp] theorem State.rescheduled_schedule (s : State) (es r n) : (s.rescheduled es r n).schedule = es := rfl
@[simp] theorem State.rescheduled_output (s : State) (es r n) : (s.rescheduled es r n).output = s.output := rfl

/-- `es` is what is left of the pending events after the next one, if there is one, is taken. -/
def State.Pending (s : State) (es : List Event) : Prop :=
  s.schedule = [] ∧ es = [] ∨ ∃ e, s.schedule = e :: es

/-- The ways a step reaches a next state. -/
inductive Moves (s t : State) : Prop
  /-- The banks are created (R122). -/
  | built (es : List Event) (img : List Byte) (pending : s.Pending es) (phase : s.phase = .build img)
      (good : Params.topologyProblem s.params = none)
      (eq : t = ((s.setSchedule es).setBanks (s.params.banks.map Bank.fresh)).setPhase (.load img))
  /-- The image is loaded (R122). -/
  | loaded (es : List Event) (img : List Byte) (m : Memory) (entry : Word) (pending : s.Pending es)
      (phase : s.phase = .load img) (load : load s.params img s.banks = (m, .ok entry))
      (eq : t = ((s.setSchedule es).setBanks m).setPhase (.construct entry))
  /-- The harts are constructed (R122). -/
  | constructed (es : List Event) (entry : Word) (pending : s.Pending es) (phase : s.phase = .construct entry)
      (eq : t = ((((s.setSchedule es).setHarts (s.params.harts.map (HartEntry.build entry))).setRound
        []).setTicksLeft s.params.maxitr).setPhase .running)
  /-- A hart ticks and its fetch succeeds (R68). -/
  | ticked (es : List Event) (r : List Nat) (n : Option Nat) (k : Nat) (h h' : Hart) (o : List Output)
      (pending : s.Pending es) (hart : s.harts[k]? = some h) (fetch : fetch s.params s.banks h = .ok (h', o))
      (eq : t = (s.rescheduled es r n).afterFetch k h' o)
  /-- A hart ticks, its fetch faults, and the fault halts that hart alone (R103). -/
  | faulted (es : List Event) (r : List Nat) (n : Option Nat) (k : Nat) (h : Hart) (f : FaultKind)
      (pending : s.Pending es) (hart : s.harts[k]? = some h) (fetch : fetch s.params s.banks h = .error f)
      (scope : s.params.faultScope = .haltHart)
      (eq : t = ((s.rescheduled es r n).record ⟨f, .hart h.id⟩).setHart k h.halt)
  /-- The host's halt command (R80). -/
  | commanded (es : List Event) (k : Nat) (h : Hart) (event : s.schedule = .halt k :: es)
      (hart : s.harts[k]? = some h) (eq : t = (s.setSchedule es).setHart k h.halt)
  /-- The host's `reset()` (R120). -/
  | wasReset (es : List Event) (k : Nat) (a : Option Word) (h : Hart) (event : s.schedule = .reset k a :: es)
      (hart : s.harts[k]? = some h) (eq : t = (s.setSchedule es).setHart k (Hart.reset a h))
  /-- A host byte write (R48). -/
  | wrote (es : List Event) (a : Nat) (v : Byte) (m : Memory) (event : s.schedule = .writeByte a v :: es)
      (write : s.banks.hostWrite a v = .ok m) (eq : t = (s.setSchedule es).setBanks m)
  /-- A host observation read (R48). -/
  | observed (es : List Event) (a : Nat) (v : Byte) (event : s.schedule = .readByte a :: es)
      (read : s.banks.hostRead a = .ok v) (eq : t = (s.setSchedule es).emit [.byte a v])

/-- An instruction that completes leaves the state as the fetch left it (R77, R78). -/
theorem exec_next {i : Instr} {s t : State} (h : exec i s = .next t) : t = s := by
  cases i with
  | nop => exact (Host.Outcome.next.inj h).symm
  | unclassified w =>
    have h : executeUnclassified w s = .next t := (execUnclassified_eq w s) ▸ h
    rcases executeUnclassified_cases w s with ⟨-, e⟩ | ⟨-, -, e⟩ | ⟨-, h', -, e⟩
    all_goals rw [e] at h
    · simpa using h.symm
    · simp at h
    · simp at h

theorem tick_moves {s t : State} {es : List Event} {r : List Nat} {n : Option Nat} {k : Nat}
    (hp : s.Pending es) (h : tick k (s.rescheduled es r n) = .next t) : Moves s t := by
  rcases tick_cases k (s.rescheduled es r n) with ⟨-, e⟩ | ⟨h', f, hk, hf, e⟩ | ⟨h', h2, o, hk, hf, e⟩
  · rw [e] at h; simp at h
  · rw [e] at h
    rcases raise_cases k f (s.rescheduled es r n) with ⟨-, e⟩ | ⟨h'', hk', -, e⟩ | ⟨h'', hk', hs, e⟩
    · rw [e] at h; simp at h
    · rw [e] at h; simp at h
    · rw [e] at h
      obtain rfl : h'' = h' := Option.some.inj (hk'.symm.trans hk)
      exact .faulted es r n k h'' f hp hk hf hs (by simpa using h.symm)
  · rw [e] at h
    exact .ticked es r n k h' h2 o hp hk hf (exec_next h)

theorem drive_moves {s t : State} {es : List Event} (hp : s.Pending es)
    (h : drive (s.setSchedule es) = .next t) : Moves s t := by
  unfold drive at h
  split at h
  · simp at h
  · split at h
    · simp at h
    · exact tick_moves hp h

theorem proceed_moves {s t : State} {es : List Event} (hp : s.Pending es)
    (h : proceed (s.setSchedule es) = .next t) : Moves s t := by
  unfold proceed at h
  split at h
  · unfold buildBanks at h
    split at h
    · exact absurd h (raiseHost_not_next _ _ _)
    · exact .built es _ hp ‹_› ‹_› (by simpa using h.symm)
  · unfold loadImage at h
    split at h
    · exact .loaded es _ _ _ hp ‹_› ‹_› (by simpa using h.symm)
    · exact absurd h (raiseHost_not_next _ _ _)
  · exact .constructed es _ hp ‹_› (by simpa [constructHarts] using h.symm)
  · exact drive_moves hp h

theorem updateHart_next {k : Nat} {g : Hart → Hart} {s t : State} (h : updateHart k g s = .next t) :
    ∃ h', s.harts[k]? = some h' ∧ t = s.setHart k (g h') := by
  unfold updateHart at h
  split at h
  · simp at h
  · exact ⟨_, ‹_›, by simpa using h.symm⟩

/-- Every next state of a step is reached by one of the moves, from a state that has not ended. -/
theorem step_moves {s t : State} (h : step s = .next t) : s.ended = false ∧ Moves s t := by
  unfold step advance at h
  split at h
  · simp at h
  · refine ⟨by simpa using ‹¬s.ended = true›, ?_⟩
    split at h
    · rename_i hs
      have hse : s = s.setSchedule [] := by cases s; simp_all [State.setSchedule]
      rw [hse] at h
      exact proceed_moves (.inl ⟨hs, rfl⟩) h
    · rename_i e es hs
      have hp : s.Pending es := .inr ⟨e, hs⟩
      cases e with
      | auto => exact proceed_moves hp h
      | tick k => exact tick_moves (r := s.round) (n := s.ticksLeft) hp h
      | halt k =>
        obtain ⟨h', hk, e⟩ := updateHart_next h
        exact .commanded es k h' hs hk e
      | reset k a =>
        obtain ⟨h', hk, e⟩ := updateHart_next h
        exact .wasReset es k a h' hs hk e
      | writeByte a v =>
        simp only [perform, hostWriteStep] at h
        split at h
        · exact .wrote es a v _ hs ‹_› (by simpa using h.symm)
        · exact absurd h (raiseHost_not_next _ _ _)
      | readByte a =>
        simp only [perform, hostReadStep] at h
        split at h
        · exact .observed es a _ hs ‹_› (by simpa using h.symm)
        · exact absurd h (raiseHost_not_next _ _ _)

/-- A step that is left to the machine is what it does by itself. -/
theorem step_of_proceedsNext {s : State} {es : List Event} (h : ProceedsNext s es) :
    step s = proceed (s.setSchedule es) := by
  obtain ⟨he, ⟨hs, rfl⟩ | hs⟩ := h
  · have hse : s = s.setSchedule [] := by cases s; simp_all [State.setSchedule]
    simp [step, advance, he, hs, ← hse]
  · simp [step, advance, he, hs, perform]

/-- A step whose next move is a tick is that tick, which starts from a state that differs in the model's own scheduling
fields alone. -/
theorem step_of_nextTick {s s0 : State} {k : Nat} {h : Hart} (ht : NextTick s s0 k h) :
    step s = tick k s0 ∧ s0.harts[k]? = some h ∧ s0.params = s.params ∧ s0.banks = s.banks ∧ s0.harts = s.harts := by
  cases ht with
  | scheduled es k h going event hart =>
    exact ⟨by simp [step, advance, going, event, perform, State.setSchedule], hart, rfl, rfl, rfl⟩
  | driven es k rest h going event phase left round hart =>
    refine ⟨?_, hart, rfl, rfl, rfl⟩
    have hr : (s.setSchedule es).nextRound = k :: rest := round
    have hd : proceed (s.setSchedule es) = tick k ((s.setSchedule es).countTick k rest) := by
      simp [proceed, phase, drive, left, hr]
    have hs : step s = proceed (s.setSchedule es) := step_of_proceedsNext ⟨going, event⟩
    exact hs.trans hd

end Sys2Proof.Machine
end

