-- ==== Sys2Proof/Tests/Slice0.lean ====
section
/-! SUPPORT. Tests: the vectors of spec/95_test_vectors.md on one operation or one step each, and for every obligation
with hypotheses a concrete witness of them. Expected results are the spec's, by vector number. -/

namespace Sys2Proof.Tests

open Sys2Proof Sys2Proof.Machine

/-! ## Small banks and states -/

def permRWX : Permissions := ⟨true, true, true⟩
def permRX : Permissions := ⟨true, false, true⟩
def permRW : Permissions := ⟨true, true, false⟩
def permWX : Permissions := ⟨false, true, true⟩

/-- A bank with some bytes. -/
def bank (name : String) (base size : Word) (perm : Permissions) (cells : List Host.Cell) : Bank :=
  { name := name, base := base, size := size, perm := perm, cells := cells }

/-- Bank `B0` of 2.1. -/
def b0 : Bank := bank "B0" 0x1000#32 0x10#32 permRWX []

/-- The overlapping banks of 2.2. -/
def abc : Memory :=
  [bank "A" 0x0#32 0x100#32 permRWX [], bank "B" 0x80#32 0x100#32 permRWX [], bank "C" 0x100#32 0x100#32 permRWX []]

/-- The banks of W8, with some ROM bytes. -/
def romRam (cells : List Host.Cell) : Memory :=
  [bank "ROM" 0x0#32 0x1000#32 permRX cells, bank "RAM" 0x1000#32 0x1000#32 permRW []]

/-- A hart at a `pc`. -/
def hartAt (pc : Word) : Hart := Hart.construct 0 pc

/-- The reset system with other banks, one hart and pending events. -/
def system (m : Memory) (h : Hart) (es : List Event) : State :=
  { State.reset with banks := m, harts := [h], schedule := es }

/-- The same under `halt_hart`. -/
def haltScope (s : State) : State := { s with params := { s.params with faultScope := .haltHart } }

/-- The same under `scaffold_noop`. -/
def scaffold (s : State) : State := { s with params := { s.params with unclassifiedPolicy := .scaffoldNoop } }

/-- The same without the fetch alignment check. -/
def unaligned (p : Params) : Params := { p with fetchAlignCheck := false }

/-- A hart at 0 over the no-op (W5). -/
def nopState : State := system (romRam [(0, 0x13#8)]) (hartAt 0#32) [.tick 0]

/-- A hart at 0 over `0x00100093` (OP2). -/
def addiState : State := system (romRam [(0, 0x93#8), (2, 0x10#8)]) (hartAt 0#32) [.tick 0]

/-- A hart at `0x2000`, which no bank claims (W9). -/
def lostState : State := system (romRam []) (hartAt 0x2000#32) [.tick 0]

/-- A halted hart at 8 (W5, OP4). -/
def haltedHart : Hart := { hartAt 0x8#32 with halted := true }

/-- Image A of section 0 with three bytes left open: `e_entry[7:0]`, `e_phnum[7:0]`, `p_flags[7:0]`. -/
def imageA (entry phnum flags : Byte) : List Byte :=
  [0x7f#8, 0x45#8, 0x4c#8, 0x46#8, 1#8, 1#8, 1#8, 0#8, 0#8, 0#8, 0#8, 0#8, 0#8, 0#8, 0#8, 0#8] ++
  [2#8, 0#8, 0xf3#8, 0#8, 1#8, 0#8, 0#8, 0#8, entry, 0#8, 0#8, 0#8, 0x34#8, 0#8, 0#8, 0#8] ++
  [0#8, 0#8, 0#8, 0#8, 0#8, 0#8, 0#8, 0#8, 0x34#8, 0#8, 0x20#8, 0#8, phnum, 0#8, 0x28#8, 0#8] ++
  [0#8, 0#8, 0#8, 0#8, 1#8, 0#8, 0#8, 0#8, 0x54#8, 0#8, 0#8, 0#8, 0#8, 0#8, 0#8, 0#8] ++
  [0#8, 0#8, 0#8, 0#8, 0x10#8, 0#8, 0#8, 0#8, 0x10#8, 0#8, 0#8, 0#8, flags, 0#8, 0#8, 0#8] ++
  [4#8, 0#8, 0#8, 0#8, 0x13#8, 0#8, 0#8, 0#8, 0x13#8, 0#8, 0#8, 0#8, 0x13#8, 0#8, 0#8, 0#8, 0x13#8, 0#8, 0#8, 0#8]

/-- The configuration of W8. -/
def p8 : Params := Params.scenario

/-! ## WellFormed -/

/-- An `Unclassified` carrying the no-op's word is refused (R66). -/
theorem test_wellFormed_refuses_nop_word : ¬(Instr.unclassified 0x00000013#32).WellFormed := by decide

theorem test_wellFormed_accepts : Instr.nop.WellFormed ∧ (Instr.unclassified 0x00100093#32).WellFormed := by decide

/-! ## Decode (2.6), words written out from R61 and R63 bit by bit -/

/-- `imm` 000000000000, `rs1` 00000, `funct3` 000, `rd` 00000, `opcode` 0010011. -/
theorem test_decode_nop_bits : decode 0b00000000000000000000000000010011#32 = .nop := by decide

/-- `13 00 00 00` at ascending addresses (R60, R63). -/
theorem test_decode_nop_bytes : decodeTableWord 32 0x13 = some .nop := by decide

/-- `imm` 000000000001, `rs1` 00000, `funct3` 000, `rd` 00001, `opcode` 0010011: no no-op (DE3 and P3). -/
theorem test_decode_unclassified_bits :
    decode 0b00000000000100000000000010010011#32 = .unclassified 0x00100093#32 := by decide

/-- A row shorter than the word has zeros above it; one longer is no instruction (R60). -/
theorem test_decode_table_widths :
    decodeTableWord 8 0x113 = some .nop ∧ decodeTableWord 40 0x13 = none := by decide

theorem test_decode_truncated : decodeBytes [0x13#8, 0x00#8, 0x00#8] = .error .truncated := by rfl

/-! ## Registers (2.4) -/

/-- RF1, RF2, RF3. -/
theorem test_registers :
    (RegisterFile.zero.set 0 0xDEADBEEF#32).get 0 = 0#32 ∧
    ((RegisterFile.zero.set 5 0xDEADBEEF#32).set 6 1#32).get 5 = 0xDEADBEEF#32 ∧
    (RegisterFile.zero.set 31 0xFFFFFFFF#32).get 31 = 0xFFFFFFFF#32 ∧
    (RegisterFile.zero.set 31 0xFFFFFFFF#32).get 30 = 0#32 := by decide

/-- RF4. -/
theorem test_registers_clear : (RegisterFile.zero.set 7 9#32).clear.get 7 = 0#32 := by decide

/-! ## Bank accessors (2.1) -/

/-- BA1. -/
theorem test_bank_word :
    ((b0.write 0x1000 .word 0x11223344#32).1.read 0x1000 .word) = .ok 0x11223344#32 ∧
    ((b0.write 0x1000 .word 0x11223344#32).1.read 0x1002 .half) = .ok 0x1122#32 ∧
    ((b0.write 0x1000 .word 0x11223344#32).1.read 0x1003 .byte) = .ok 0x11#32 := by decide

/-- BA2, BA5. -/
theorem test_bank_half :
    ((b0.write 0x1005 .half 0xABCD#32).1.read 0x1004 .word) = .ok 0x00ABCD00#32 ∧
    ((b0.write 0x1001 .byte 0x1FF#32).1.byteAt 0x1001) = 0xFF#8 := by decide

/-- BA3, BA4, BA6. -/
theorem test_bank_overrun :
    b0.read 0x100E .word = .error (.outOfBounds 0x1010) ∧
    (b0.write 0x100E .word 0xAABBCCDD#32).2 = some (.outOfBounds 0x1010) ∧
    (b0.write 0x100E .word 0xAABBCCDD#32).1.cells = [(0x100E, 0xDD#8), (0x100F, 0xCC#8)] ∧
    b0.read 0x0FFF .byte = .error (.outOfBounds 0xFFF) := by decide

/-! ## Decoder and permissions (2.2, 2.3) -/

/-- AD1 to AD6. -/
theorem test_decoder :
    [0x7F, 0x80, 0x100, 0x17F, 0x180, 0x200].map (fun a => (abc.select a).map (·.name)) =
      [some "A", some "A", some "B", some "B", some "C", none] := by decide

/-- AD7. -/
theorem test_decoder_overrun :
    abc.read { p8 with verbose := true } 0xFE#32 .word .load = .error (.outOfBounds 0x100) := by decide

/-- AD8: each byte is routed on its own. -/
theorem test_host_bytes :
    ((abc.hostWrite 0xFF 0x11#8).toOption.bind fun m => (m.hostWrite 0x100 0x22#8).toOption).map
      (fun m => m.map (·.cells)) = some [[(0xFF, 0x11#8)], [(0x100, 0x22#8)], []] := by decide

/-- PM1, PM5. -/
theorem test_store_permission :
    ((romRam []).write p8 0x10#32 .word 1#32).2 = some (.permissionDenied 0x10#32 .store) ∧
    ((romRam []).write { p8 with enforcePermissions := false } 0x10#32 .word 0x01020304#32).2 = none := by decide

/-- The codes of R99. -/
theorem test_fault_codes :
    [FaultKind.fetchOutOfBounds 0#32, .outOfBounds 0, .permissionDenied 0#32 .fetch, .misalignedFetch 0#32,
      .formatError .tooShort, .configError .bankBeyondSpace].map FaultKind.code = [1, 2, 3, 4, 5, 6] := by decide

/-! ## Fetch (2.5) and instructions (2.7) -/

/-- FE8: `pc` wraps at the top of the address space. -/
theorem test_fetch_wraps :
    (fetch p8 [bank "T" 0xFFFFFF00#32 0x100#32 permRWX [(0xFFFFFFFC, 0x13#8)]] (hartAt 0xFFFFFFFC#32)).toOption.map
      (fun r => (r.1.pc, r.1.ir)) = some (0#32, 0x13#32) := by decide

/-- FE6: a misaligned fetch without the check. -/
theorem test_fetch_misaligned_unchecked :
    (fetch (unaligned p8) (romRam [(0x8, 0x78#8), (0x9, 0x56#8), (0xA, 0x34#8), (0xB, 0x12#8)])
      (hartAt 0x6#32)).toOption.map (fun r => (r.1.pc, r.1.ir)) = some (0xA#32, 0x56780000#32) := by decide

/-- The priority example of 2.5: `pc = 0x2002` is misaligned before it is unclaimed (R108). -/
theorem test_fetch_priority :
    (fetch p8 (romRam []) (hartAt 0x2002#32)) = .error (.misalignedFetch 0x2002#32) := by rfl

/-- OP1: the no-op advances `pc`, and `x1 = 7` stays. -/
theorem test_nop_step :
    (Result.next? (step (system (romRam [(0, 0x13#8)])
      { hartAt 0#32 with regs := RegisterFile.zero.set 1 7#32 } [.tick 0]))).map
      (fun s => s.harts.map fun h => (h.pc, h.ir, h.regs.get 1)) = some [(0x4#32, 0x13#32, 7#32)] := by decide

/-- The no-op placed at reset runs as the first instruction. -/
theorem test_nop_first :
    (Result.next? (step (State.reset.withFetchWord 32 0x13))).map (fun s => s.harts.map (·.pc)) =
      some [0x4#32] := by decide

/-- OP2: the refusal names the word and its fetch address; the fetch has completed. -/
theorem test_unclassified_refused :
    step addiState = .refused (.unclassifiedWord 0x00100093#32 0x0#32
      { addiState with
        schedule := [], refused := true,
        harts := [{ hartAt 0#32 with pc := 0x4#32, ir := 0x00100093#32 }] }) := by rfl

/-- OP3. -/
theorem test_unclassified_scaffold :
    (Result.next? (step (scaffold addiState))).map (fun s => s.harts.map fun h => (h.pc, h.ir, h.regs.get 1)) =
      some [(0x4#32, 0x00100093#32, 0#32)] := by decide

/-! ## Loader (2.8), harts (2.9), drivers (2.10) -/

/-- LD1. -/
theorem test_load_image_a :
    (load p8 (imageA 0#8 1#8 5#8) (romRam [])).1.map (·.cells) =
      [[(0, 0x13#8), (4, 0x13#8), (8, 0x13#8), (12, 0x13#8)], []] := by decide

/-- LD6, LD8, LD11, W7. -/
theorem test_load_checks :
    (load p8 (imageA 0#8 0#8 5#8) (romRam [])).2.toOption = none ∧
    checkImage p8 (imageA 0#8 0#8 5#8) = some .noSegments ∧
    checkImage p8 (imageA 0#8 2#8 5#8) = some .badSegmentTable ∧
    load p8 (imageA 0x40#8 1#8 4#8) (romRam []) = (romRam [], .ok 0x40#32) := by
  refine ⟨by decide, by decide, by decide, by rfl⟩

/-- LD16: placement does not wrap past the 32-bit space. -/
theorem test_place_past_the_space :
    (placeBytes 0xFFFFFFFF [0x02#8, 0x03#8] [bank "T" 0xFFFFFF00#32 0x100#32 permRWX []]).2 =
      some (.outOfBounds 0x100000000) := by decide

/-- HR1, HR3. -/
theorem test_halt_and_reset :
    (Result.next? (step (system (romRam []) (hartAt 0x8#32) [.halt 0]))).map
      (fun s => s.harts.map fun h => (h.pc, h.halted)) = some [(0x8#32, true)] ∧
    (Result.next? (step (system (romRam []) { haltedHart with resetAddr := 0x0#32 } [.reset 0 none]))).map
      (fun s => s.harts.map fun h => (h.pc, h.halted)) = some [(0x0#32, false)] := by decide

/-- HR7: under `halt_hart` the fault is recorded and the hart halted in place. -/
theorem test_fault_halts_hart :
    (Result.next? (step (haltScope lostState))).map
      (fun s => (s.faults, s.harts.map fun h => (h.pc, h.halted))) =
      some ([⟨.fetchOutOfBounds 0x2000#32, .hart 0⟩], [(0x2000#32, true)]) := by decide

/-- SC2: hart 1 is halted, so a new round ticks hart 0 only. -/
theorem test_round : ({ nopState with harts := [hartAt 0#32, haltedHart] } : State).nextRound = [0] := by decide

/-- `State.reset` is what bring-up leaves for an image with no allowed segment and entry `0x0` (R122, W7). -/
theorem test_bring_up_gives_reset :
    constructHarts 0#32 { State.powerOn p8 [] with banks := p8.banks.map Bank.fresh } = .next State.reset := by rfl

/-! ## Witnesses of the obligations' hypotheses -/

theorem witness_RegisterSetThenGet : (0 : Fin 32) = 0 ∧ (31 : Fin 32) ≠ 0 ∧ (30 : Fin 32) ≠ 31 := by decide

/-- Both clauses, at the last word and at the first overrun. -/
theorem witness_BankReadIsLittleEndian :
    (∀ i, i < Width.word.bytes → b0.claims (0x100C + i) = true) ∧
    (2 < Width.word.bytes ∧ (∀ j, j < 2 → b0.claims (0x100E + j) = true) ∧ b0.claims (0x100E + 2) = false) := by decide

/-- Every clause: a store that fits, one that overruns at its third byte, and a byte neither reaches. -/
theorem witness_BankWriteStoresBytesBelowTheEnd :
    b0.wf = true ∧ (∀ i, i < Width.word.bytes → b0.claims (0x100C + i) = true) ∧
    (∀ j, j < 2 → b0.claims (0x100E + j) = true) ∧ b0.claims (0x100E + 2) = false ∧
    (∀ j, j ≤ 1 → b0.claims (0x100E + j) = true) ∧
    (∀ i, i < Width.word.bytes → 0x1010 = 0x100E + i → ∃ j, j ≤ i ∧ b0.claims (0x100E + j) = false) :=
  ⟨by decide, by decide, by decide, by decide, by decide, fun i _ h => ⟨i, le_refl i, by rw [← h]; decide⟩⟩

theorem witness_StoreThenFetchReturnsValue :
    Memory.wf [b0] = true ∧ Memory.select [b0] 0x100C = some b0 ∧
      ∀ i, i < Width.word.bytes → b0.claims (0x100C + i) = true := by decide

theorem witness_MemWriteThenMemRead :
    Memory.wf [b0] = true ∧ Memory.select [b0] (0x100C#32).toNat = some b0 ∧
    (∀ i, i < Width.word.bytes → b0.claims ((0x100C#32).toNat + i) = true) ∧
    (p8.enforcePermissions = true → b0.perm.write = true ∧ b0.perm.read = true) := by decide

/-- Bank `B` claims the byte that overruns `A` (AD7); a load and a fetch that overrun the ROM, which permits no store; a
store that overruns the RAM. -/
theorem witness_AccessOverrunningItsBankFails :
    (abc.select (0xFE#32).toNat = some (bank "A" 0x0#32 0x100#32 permRWX []) ∧
      2 < Width.word.bytes ∧ (∀ j, j < 2 → (bank "A" 0x0#32 0x100#32 permRWX []).claims ((0xFE#32).toNat + j) = true) ∧
      (bank "A" 0x0#32 0x100#32 permRWX []).claims ((0xFE#32).toNat + 2) = false) ∧
    (let rom := bank "ROM" 0x0#32 0x1000#32 permRX []
     (romRam []).select (0xFFD#32).toNat = some rom ∧ 3 < Width.word.bytes ∧
      (∀ j, j < 3 → rom.claims ((0xFFD#32).toNat + j) = true) ∧ rom.claims ((0xFFD#32).toNat + 3) = false ∧
      p8.enforcePermissions = true ∧ AccessKind.load.allowed rom.perm = true ∧
      AccessKind.fetch.allowed rom.perm = true ∧ rom.perm.write = false) ∧
    (let ram := bank "RAM" 0x1000#32 0x1000#32 permRW []
     (romRam []).select (0x1FFF#32).toNat = some ram ∧ 1 < Width.half.bytes ∧
      (∀ j, j < 1 → ram.claims ((0x1FFF#32).toNat + j) = true) ∧ ram.claims ((0x1FFF#32).toNat + 1) = false ∧
      (p8.enforcePermissions = true → ram.perm.write = true)) := by decide

theorem witness_UnclaimedAddressFailsEveryAccessor :
    ∀ b ∈ romRam [], b.claims (0x2000#32).toNat = false := by decide

/-- A bank without each flag. -/
theorem witness_PermissionDeniedBeforeAnyByte :
    p8.enforcePermissions = true ∧
    ((romRam []).select (0x10#32).toNat = some (bank "ROM" 0x0#32 0x1000#32 permRX []) ∧ permRX.write = false) ∧
    ((romRam []).select (0x1000#32).toNat = some (bank "RAM" 0x1000#32 0x1000#32 permRW []) ∧ permRW.execute = false) ∧
    (Memory.select [bank "W" 0x0#32 0x10#32 permWX []] (0xF#32).toNat = some (bank "W" 0x0#32 0x10#32 permWX []) ∧
      permWX.read = false) := by decide

theorem witness_FullPermissionsMakeEnforcementIrrelevant : ∀ b ∈ abc, b.perm = ⟨true, true, true⟩ := by decide

/-- A ROM byte (no write flag), written and read as a step. -/
theorem witness_HostByteWriteChangesOneByte :
    let rom := bank "ROM" 0x0#32 0x1000#32 permRX []
    (Memory.wf (romRam []) = true ∧ (romRam []).select 0xFFF = some rom) ∧
    (let s := system (romRam []) (hartAt 0#32) [.writeByte 0xFFF 1#8]
     s.ended = false ∧ s.banks.select 0xFFF = some rom ∧ s.schedule = [.writeByte 0xFFF 1#8]) ∧
    (let s := system (romRam []) (hartAt 0#32) [.readByte 0xFFF]
     s.ended = false ∧ s.banks.select 0xFFF = some rom ∧ s.schedule = [.readByte 0xFFF]) := by decide

/-- A load that reads, a store that stores; a load and a store that fault, under each scope. -/
theorem witness_MemoryStagesReuseTheAccessors :
    nopState.harts[0]? = some (hartAt 0#32) ∧ (haltScope nopState).harts[0]? = some (hartAt 0#32) ∧
    nopState.banks.read nopState.params 0#32 .word .load = .ok 0x13#32 ∧
    (nopState.banks.write nopState.params 0x1000#32 .word 1#32).2 = none ∧
    nopState.params.faultScope = .terminateSimulation ∧ (haltScope nopState).params.faultScope = .haltHart ∧
    (∀ s ∈ [nopState, haltScope nopState],
      s.banks.read s.params 0x2000#32 .byte .load = .error (.outOfBounds 0x2000) ∧
      (s.banks.write s.params 0x1FFE#32 .word 0x01010101#32).2 = some (.outOfBounds 0x2000) ∧
      (s.banks.write s.params 0x1FFE#32 .word 0x01010101#32).1 ≠ s.banks) := by decide

theorem witness_DecodeOfEncodeIsIdentity :
    Instr.nop.WellFormed ∧ (Instr.unclassified 0xFFFFFFFF#32).WellFormed := by decide

theorem witness_EncodeOfDecodeIsIdentity : 4 ≤ [0x13#8, 0x00#8, 0x00#8, 0x00#8].length := by decide

/-- Both clauses, the second at the nearest words. -/
theorem witness_DecodeRecognisesTheNopAlone :
    0x00000013#32 = nopWord ∧ 0x00000012#32 ≠ nopWord ∧ 0x00000014#32 ≠ nopWord := by decide

theorem witness_UnclassifiedCompletesUnderScaffoldNoop :
    (scaffold State.reset).params.unclassifiedPolicy = .scaffoldNoop := by decide

theorem witness_UnclassifiedIsRefusedUnderRefuse :
    State.reset.params.unclassifiedPolicy = .refuse ∧
      State.reset.harts[State.reset.current]? = some (hartAt 0#32) := by decide

/-- Both instructions complete somewhere. -/
theorem witness_InstructionsChangeNothingAfterTheFetch :
    exec .nop State.reset = .next State.reset ∧
      exec (.unclassified 0#32) (scaffold State.reset) = .next (scaffold State.reset) := ⟨rfl, rfl⟩

/-- The same system with nothing pending, and with `auto` at the front: the next tick is the driver's. -/
def driven (s : State) : State := { s with schedule := [] }
def drivenByAuto (s : State) : State := { s with schedule := [.auto, .halt 0] }

theorem nopState_nextTick : NextTick nopState { nopState with schedule := [] } 0 (hartAt 0#32) :=
  .scheduled [] 0 _ (by decide) (by decide) (by decide)

theorem nopState_driven :
    NextTick (driven nopState) { nopState with schedule := [], round := [] } 0 (hartAt 0#32) :=
  .driven [] 0 [] _ (by decide) (by decide) (by decide) (by decide) (by decide) (by decide)

theorem nopState_drivenByAuto :
    NextTick (drivenByAuto nopState) { nopState with schedule := [.halt 0], round := [] } 0 (hartAt 0#32) :=
  .driven [.halt 0] 0 [] _ (by decide) (by decide) (by decide) (by decide) (by decide) (by decide)

theorem nopState_fetches : Fetches nopState.params nopState.banks (hartAt 0#32) 0x00000013#32 :=
  ⟨by decide, by decide, bank "ROM" 0x0#32 0x1000#32 permRX [(0, 0x13#8)], by decide, by decide, by decide⟩

theorem addiState_nextTick : NextTick addiState { addiState with schedule := [] } 0 (hartAt 0#32) :=
  .scheduled [] 0 _ (by decide) (by decide) (by decide)

theorem addiState_driven :
    NextTick (driven (scaffold addiState)) { scaffold addiState with schedule := [], round := [] } 0 (hartAt 0#32) :=
  .driven [] 0 [] _ (by decide) (by decide) (by decide) (by decide) (by decide) (by decide)

theorem addiState_fetches : Fetches addiState.params addiState.banks (hartAt 0#32) 0x00100093#32 :=
  ⟨by decide, by decide, bank "ROM" 0x0#32 0x1000#32 permRX [(0, 0x93#8), (2, 0x10#8)], by decide, by decide, by decide⟩

/-- A scheduled tick, and the driver's with nothing pending and with `auto` at the front. -/
theorem witness_NopTick :
    Fetches nopState.params nopState.banks (hartAt 0#32) 0x00000013#32 ∧
    (∃ s0, NextTick nopState s0 0 (hartAt 0#32)) ∧ (∃ s0, NextTick (driven nopState) s0 0 (hartAt 0#32)) ∧
      ∃ s0, NextTick (drivenByAuto nopState) s0 0 (hartAt 0#32) :=
  ⟨nopState_fetches, ⟨_, nopState_nextTick⟩, ⟨_, nopState_driven⟩, ⟨_, nopState_drivenByAuto⟩⟩

/-- The same, and a word that is not the no-op. -/
theorem witness_StepRunsTheDecodedInstruction :
    (NextTick nopState { nopState with schedule := [] } 0 (hartAt 0#32) ∧
      Fetches nopState.params nopState.banks (hartAt 0#32) 0x00000013#32) ∧
    (NextTick (drivenByAuto nopState) { nopState with schedule := [.halt 0], round := [] } 0 (hartAt 0#32) ∧
      Fetches (drivenByAuto nopState).params (drivenByAuto nopState).banks (hartAt 0#32) 0x00000013#32) ∧
    (NextTick (driven (scaffold addiState)) { scaffold addiState with schedule := [], round := [] } 0 (hartAt 0#32) ∧
      Fetches (driven (scaffold addiState)).params (driven (scaffold addiState)).banks (hartAt 0#32) 0x00100093#32) :=
  ⟨⟨nopState_nextTick, nopState_fetches⟩, ⟨nopState_drivenByAuto, nopState_fetches⟩, addiState_driven, addiState_fetches⟩

/-- Both policies. -/
theorem witness_UnclassifiedTick :
    0x00100093#32 ≠ 0x00000013#32 ∧
    (NextTick addiState { addiState with schedule := [] } 0 (hartAt 0#32) ∧
      Fetches addiState.params addiState.banks (hartAt 0#32) 0x00100093#32 ∧
      addiState.params.unclassifiedPolicy = .refuse) ∧
    (NextTick (driven (scaffold addiState)) { scaffold addiState with schedule := [], round := [] } 0 (hartAt 0#32) ∧
      Fetches (driven (scaffold addiState)).params (driven (scaffold addiState)).banks (hartAt 0#32) 0x00100093#32 ∧
      (driven (scaffold addiState)).params.unclassifiedPolicy = .scaffoldNoop) :=
  ⟨by decide, ⟨addiState_nextTick, addiState_fetches, by decide⟩, addiState_driven, addiState_fetches, by decide⟩

theorem witness_HaltedTick :
    (∃ s0, NextTick (system (romRam []) haltedHart [.tick 0]) s0 0 haltedHart) ∧ haltedHart.halted = true :=
  ⟨⟨_, .scheduled [] 0 _ (by decide) (by decide) (by decide)⟩, by decide⟩

/-- A fetch that reads and each of the four faults. -/
theorem witness_FetchReadsOrFaultsAsSpecified :
    Fetches nopState.params nopState.banks (hartAt 0#32) 0x00000013#32 ∧
    FetchFaults p8 (romRam []) (hartAt 0x6#32) (.misalignedFetch 0x6#32) ∧
    FetchFaults p8 (romRam []) (hartAt 0x2000#32) (.fetchOutOfBounds 0x2000#32) ∧
    FetchFaults p8 (romRam []) (hartAt 0x1000#32) (.permissionDenied 0x1000#32 .fetch) ∧
    FetchFaults p8 [bank "X" 0x0#32 0x6#32 permRWX [], bank "Y" 0x6#32 0xA#32 permRWX []] (hartAt 0x4#32)
      (.outOfBounds ((hartAt 0x4#32).pc.toNat + 2)) :=
  ⟨nopState_fetches, .misaligned (by decide) (by decide), .unclaimed (by decide) (by decide),
    .denied (bank "RAM" 0x1000#32 0x1000#32 permRW []) (by decide) (by decide) (by decide) (by decide),
    .overrun (bank "X" 0x0#32 0x6#32 permRWX []) 2 (by decide) (by decide) (by decide) (by decide) (by decide) (by decide)⟩

/-- A scheduled tick and the driver's. -/
theorem witness_FetchFaultEndsTheSimulation :
    (∃ s0, NextTick lostState s0 0 (hartAt 0x2000#32)) ∧ (∃ s0, NextTick (driven lostState) s0 0 (hartAt 0x2000#32)) ∧
    (hartAt 0x2000#32).halted = false ∧
    FetchFaults lostState.params lostState.banks (hartAt 0x2000#32) (.fetchOutOfBounds 0x2000#32) ∧
    lostState.params.faultScope = .terminateSimulation ∧ (driven lostState).params = lostState.params ∧
    (driven lostState).banks = lostState.banks :=
  ⟨⟨_, .scheduled [] 0 _ (by decide) (by decide) (by decide)⟩,
    ⟨_, .driven [] 0 [] _ (by decide) (by decide) (by decide) (by decide) (by decide) (by decide)⟩,
    by decide, .unclaimed (by decide) (by decide), by decide, rfl, rfl⟩

/-- A scheduled tick and the driver's. -/
theorem witness_FetchFaultHaltsTheHart :
    let s := haltScope lostState
    (∃ s0, NextTick s s0 0 (hartAt 0x2000#32)) ∧ (∃ s0, NextTick (driven s) s0 0 (hartAt 0x2000#32)) ∧
    (hartAt 0x2000#32).halted = false ∧
    FetchFaults s.params s.banks (hartAt 0x2000#32) (.fetchOutOfBounds 0x2000#32) ∧
    s.params.faultScope = .haltHart ∧ (driven s).params = s.params ∧ (driven s).banks = s.banks :=
  ⟨⟨_, .scheduled [] 0 _ (by decide) (by decide) (by decide)⟩,
    ⟨_, .driven [] 0 [] _ (by decide) (by decide) (by decide) (by decide) (by decide) (by decide)⟩,
    by decide, .unclaimed (by decide) (by decide), by decide, rfl, rfl⟩

/-- Under `halt_hart`: a write and a read no bank claims; a load with a `FormatError` and one that places past a bank of 8
bytes, the latter with `auto` pending; a topology with equal ids. -/
theorem witness_HostFaultEndsTheSimulation :
    let w := haltScope (system (romRam []) (hartAt 0#32) [.writeByte 0x2000 1#8])
    let r := haltScope (system (romRam []) (hartAt 0#32) [.readByte 0x2000])
    let l := fun (img : List Byte) (es : List Event) =>
      haltScope { system [bank "X" 0x0#32 0x8#32 permRX []] (hartAt 0#32) es with harts := [], phase := .load img }
    let c := haltScope (State.powerOn { p8 with harts := [⟨0, none⟩, ⟨0, none⟩] } [])
    (w.ended = false ∧ (∀ b ∈ w.banks, b.claims 0x2000 = false) ∧ w.schedule = [.writeByte 0x2000 1#8]) ∧
    (r.ended = false ∧ (∀ b ∈ r.banks, b.claims 0x2000 = false) ∧ r.schedule = [.readByte 0x2000]) ∧
    (ProceedsNext (l (imageA 0#8 0#8 5#8) []) [] ∧
      load p8 (imageA 0#8 0#8 5#8) (l (imageA 0#8 0#8 5#8) []).banks =
        ((l (imageA 0#8 0#8 5#8) []).banks, .error (.formatError .noSegments))) ∧
    (ProceedsNext (l (imageA 0#8 1#8 5#8) [.auto]) [] ∧
      ∃ m, load p8 (imageA 0#8 1#8 5#8) (l (imageA 0#8 1#8 5#8) [.auto]).banks = (m, .error (.outOfBounds 8))) ∧
    (ProceedsNext c [] ∧ c.phase = .build [] ∧ Params.topologyProblem c.params = some .duplicateHartId) :=
  ⟨by decide, by decide, ⟨⟨rfl, .inl ⟨rfl, rfl⟩⟩, rfl⟩, ⟨⟨rfl, .inr rfl⟩, _, rfl⟩, ⟨rfl, .inl ⟨rfl, rfl⟩⟩, rfl, by decide⟩

/-- Each way of having ended, and a hart's fault under `halt_hart`, after which steps go on. -/
theorem witness_EndedSimulationHasNoStep :
    (Result.fault? (step { nopState with refused := true }) = some .simulationEnded) ∧
    (Result.fault? (step { nopState with faults := [⟨.misalignedFetch 2#32, .hart 0⟩] }) = some .simulationEnded) ∧
    (Result.fault? (step (haltScope { nopState with faults := [⟨.outOfBounds 0, .host⟩] })) = some .simulationEnded) ∧
    (Result.next? (step (haltScope { nopState with faults := [⟨.misalignedFetch 2#32, .hart 0⟩] }))).isSome = true := by
  decide

/-- A next state, a raised fault and a refusal. -/
theorem witness_FaultRecordsAreNeverCleared :
    (∃ t, step nopState = .next t) ∧ (∃ r t, step lostState = .fault (.raised r t)) ∧
      ∃ w a t, step addiState = .refused (.unclassifiedWord w a t) :=
  ⟨⟨_, rfl⟩, ⟨_, _, rfl⟩, ⟨_, _, _, rfl⟩⟩

theorem witness_HaltCommandSetsTheFlagAlone :
    let s := system (romRam []) (hartAt 0x8#32) [.halt 0]
    s.ended = false ∧ s.schedule = [.halt 0] ∧ s.harts[0]? = some (hartAt 0x8#32) := by decide

/-- With and without an address (HR3, HR4). -/
theorem witness_ResetCommandRestoresTheHart :
    let s := fun a => system (romRam []) haltedHart [.reset 0 a]
    ((s (some 0x200#32)).ended = false ∧ (s (some 0x200#32)).schedule = [.reset 0 (some 0x200#32)] ∧
      (s (some 0x200#32)).harts[0]? = some haltedHart) ∧
    ((s none).ended = false ∧ (s none).schedule = [.reset 0 none] ∧ (s none).harts[0]? = some haltedHart) := by decide

theorem witness_HaltedIsLeftOnlyByReset :
    let s := system (romRam []) haltedHart [.tick 0]
    s.phase = .running ∧ s.harts[0]? = some haltedHart ∧ haltedHart.halted = true ∧ (∃ t, step s = .next t) ∧
      ∀ a es, s.schedule ≠ .reset 0 a :: es :=
  ⟨rfl, rfl, rfl, ⟨_, rfl⟩, fun _ _ h => by cases h⟩

/-- Both ways: the command, and a fault under `halt_hart`. -/
theorem witness_HaltedIsEnteredOnlyByCommandOrFault :
    (∃ t h', step (system (romRam []) (hartAt 0x8#32) [.halt 0]) = .next t ∧ t.harts[0]? = some h' ∧
      h'.halted = true) ∧
    (lostState.phase = .running ∧ lostState.harts[0]? = some (hartAt 0x2000#32) ∧
      (hartAt 0x2000#32).halted = false ∧
      ∃ t h', step (haltScope lostState) = .next t ∧ t.harts[0]? = some h' ∧ h'.halted = true) :=
  ⟨⟨_, _, rfl, rfl, rfl⟩, rfl, rfl, rfl, _, _, rfl, rfl, rfl⟩

theorem witness_RunTicksUntilHalted :
    (system (romRam []) haltedHart []).harts[0]? = some haltedHart ∧ haltedHart.halted = true ∧
      nopState.harts[0]? = some (hartAt 0#32) ∧ (hartAt 0#32).halted = false := by decide

theorem nopState_inv : nopState.Inv := ⟨by decide, by decide, by decide, by decide⟩

theorem witness_StepKeepsTheInvariant : nopState.Inv ∧ ∃ t, step nopState = .next t := ⟨nopState_inv, _, rfl⟩

theorem witness_StepKeepsPcAligned : nopState.PcAligned ∧ ∃ t, step nopState = .next t :=
  ⟨⟨rfl, by decide, fun e he => by
    obtain rfl : e = .tick 0 := by simpa [nopState, system] using he
    trivial⟩, _, rfl⟩

/-- The same with a pending reset to an aligned address. -/
theorem witness_StepKeepsPcAligned_reset :
    (system (romRam []) haltedHart [.reset 0 (some 0x200#32)]).PcAligned :=
  ⟨rfl, by decide, fun e he => by
    obtain rfl : e = .reset 0 (some 0x200#32) := by simpa [system] using he
    exact (by decide : Aligned 0x200#32)⟩

theorem witness_GeometryAndIdsAreConstant : nopState.phase = .running ∧ ∃ t, step nopState = .next t :=
  ⟨rfl, _, rfl⟩

theorem witness_OnlyTheHostWritesMemory :
    let s := system (romRam []) (hartAt 0#32) [.writeByte 0xC 0x93#8]
    s.phase = .running ∧ (Result.next? (step s)).map (fun t => decide (t.banks ≠ s.banks)) = some true := by decide

theorem witness_RegistersChangeOnlyByReset :
    let h := { hartAt 0#32 with regs := RegisterFile.zero.set 5 3#32 }
    let s := system (romRam []) h [.reset 0 none]
    s.phase = .running ∧ s.harts[0]? = some h ∧
      (Result.next? (step s)).map (fun t => t.harts.map fun h' => decide (h'.regs ≠ h.regs)) = some [true] := by decide

theorem witness_StepKeepsRegistersZero :
    (∀ h ∈ nopState.harts, h.RegistersZero) ∧ ∃ t, step nopState = .next t :=
  ⟨fun h hh i => by
    obtain rfl : h = hartAt 0#32 := by simpa [nopState, system] using hh
    revert i; decide, _, rfl⟩

/-- A scheduled tick and the driver's. -/
theorem witness_TickLeavesOtherHartsAndMemory :
    ((∃ s0, NextTick nopState s0 0 (hartAt 0#32)) ∧ ∃ t, step nopState = .next t) ∧
      (∃ s0, NextTick (driven nopState) s0 0 (hartAt 0#32)) ∧ ∃ t, step (driven nopState) = .next t :=
  ⟨⟨⟨_, nopState_nextTick⟩, _, rfl⟩, ⟨_, nopState_driven⟩, _, rfl⟩

theorem witness_HostPatchIsFetched :
    Memory.wf nopState.banks = true ∧ Fetches nopState.params nopState.banks (hartAt 0#32) 0x00000013#32 ∧
    nopState.banks.select ((hartAt 0#32).pc.toNat + 3) = nopState.banks.select (hartAt 0#32).pc.toNat ∧
    ∃ m', nopState.banks.hostWrite ((hartAt 0#32).pc.toNat + 3) 0x80#8 = .ok m' :=
  ⟨by decide, nopState_fetches, by decide, _, rfl⟩

/-- A new round, the middle of one (hart 1 halted meanwhile), its end, and what each driver keeps of it. -/
theorem witness_DriverTicksRunningHartsInOrder :
    let s : State := { nopState with harts := [hartAt 0#32, haltedHart, hartAt 4#32] }
    (s.round = [] ∧ s.nextRound = [0, 2] ∧ s.params.driver = .roundRobin) ∧
    (let m : State := { s with round := [1, 2] }
     m.round.dropWhile m.haltedAt = [2] ∧ m.nextRound = [2]) ∧
    (let e : State := { s with round := [1] }
     e.round.dropWhile e.haltedAt = [] ∧ e.nextRound = [0, 2]) ∧
    ({ s with params := { s.params with driver := .runToCompletion } } : State).nextRound = [0, 2] := by decide

/-- `MAXITR` used up, every hart halted, and neither. -/
theorem witness_DriverStopsWhenHaltedOrCapped :
    let s : State := { nopState with schedule := [] }
    let c : State := { s with ticksLeft := some 0 }
    let h : State := { s with harts := [haltedHart] }
    (s.ended = false ∧ s.schedule = [] ∧ s.phase = .running ∧ s.ticksLeft ≠ some 0 ∧
      (Result.next? (step s)).isSome = true) ∧
    (c.ended = false ∧ Result.fault? (step c) = some (.driverStopped .maxitrReached)) ∧
    (h.ended = false ∧ Result.fault? (step h) = some (.driverStopped .allHalted)) := by decide

theorem witness_FinalStateTakesNoStepByItself :
    (system (romRam []) haltedHart []).Final ∧ (system (romRam []) haltedHart []).schedule = [] := by decide

theorem witness_PlacedInstructionIsFetched :
    Memory.wf State.reset.banks = true ∧ State.reset.nextHart = some 0 ∧
    State.reset.harts[0]? = some (hartAt 0#32) ∧ (hartAt 0#32).halted = false ∧
    (State.reset.params.fetchAlignCheck = true → Aligned (hartAt 0#32).pc) ∧
    State.reset.banks.select (hartAt 0#32).pc.toNat = some (bank "ROM" 0x0#32 0x1000#32 permRX []) ∧
    (State.reset.params.enforcePermissions = true → permRX.execute = true) ∧
    (∀ i, i < 4 → (bank "ROM" 0x0#32 0x1000#32 permRX []).claims ((hartAt 0#32).pc.toNat + i) = true) ∧
    0xFFFFFFFF < 2 ^ 32 := by decide

/-- Each check of the header in turn: too short, bad magic (LD3), class (LD4), endianness (LD5), no segments (LD6), entry
size (LD7) and table end (LD8); a segment that ends past the file (LD9's case); and an image that passes (LD1). -/
theorem witness_HeaderChecksInOrder :
    ((imageA 0#8 1#8 5#8).take 51).length < 52 ∧
    (let i := (imageA 0#8 1#8 5#8).set 3 0x47#8
     52 ≤ i.length ∧ ¬(p8.elfCheckMagic = true → i.take 4 = [0x7F#8, 0x45#8, 0x4C#8, 0x46#8])) ∧
    (let i := (imageA 0#8 1#8 5#8).set 4 2#8
     52 ≤ i.length ∧ i.take 4 = [0x7F#8, 0x45#8, 0x4C#8, 0x46#8] ∧ i[4]? ≠ some 1#8) ∧
    (let i := (imageA 0#8 1#8 5#8).set 5 2#8
     52 ≤ i.length ∧ i[4]? = some 1#8 ∧ i[5]? ≠ some 1#8) ∧
    (let i := imageA 0#8 0#8 5#8
     52 ≤ i.length ∧ i[4]? = some 1#8 ∧ i[5]? = some 1#8 ∧ fileNat i 0x2C 2 = 0) ∧
    (let i := (imageA 0#8 1#8 5#8).set 0x2A 16#8
     52 ≤ i.length ∧ fileNat i 0x2C 2 ≠ 0 ∧ fileNat i 0x2A 2 < 32) ∧
    (let i := imageA 0#8 2#8 5#8
     52 ≤ i.length ∧ fileNat i 0x2C 2 ≠ 0 ∧
      i.length < fileNat i 0x1C 4 + (fileNat i 0x2C 2 - 1) * fileNat i 0x2A 2 + 32) ∧
    (let i := (imageA 0#8 1#8 5#8).take 99
     HeaderSound p8 i ∧ ∃ h ∈ eligibleSegments p8 i, i.length < h.offset + h.filesz) ∧
    ImageSound p8 (imageA 0#8 1#8 5#8) := by
  unfold ImageSound HeaderSound; decide

/-- The text-and-data list, which leaves out Image A with flag word 4, and "everything", which takes it (W7, R92). -/
theorem witness_EligibleSegmentsAreReadFromTheFile :
    (HeaderSound p8 (imageA 0#8 1#8 5#8) ∧ 0 < fileNat (imageA 0#8 1#8 5#8) 0x2C 2) ∧
    p8.allowedFlags = .listed [0x5#32, 0x6#32] ∧
    (eligibleSegments p8 (imageA 0#8 1#8 5#8)).length = 1 ∧ (eligibleSegments p8 (imageA 0#8 1#8 4#8)).length = 0 ∧
    ({ p8 with allowedFlags := .everything } : Params).allowedFlags = .everything ∧
    eligibleSegments { p8 with allowedFlags := .everything } (imageA 0#8 1#8 4#8) =
      [{ type := 1, offset := 0x54, paddr := 0, filesz := 0x10, flags := 4#32 }] := by
  unfold HeaderSound; decide

theorem witness_FormatErrorStoresNothing :
    load p8 (imageA 0#8 0#8 5#8) (romRam []) = (romRam [], .error (.formatError .noSegments)) := by rfl

/-- Both clauses: a load, and one with no eligible segment (W7). -/
theorem witness_LoaderReturnsTheEntryPoint :
    (∃ m', load p8 (imageA 0x40#8 1#8 5#8) (romRam []) = (m', .ok 0x40#32)) ∧
    HeaderSound p8 (imageA 0x40#8 1#8 4#8) ∧ eligibleSegments p8 (imageA 0x40#8 1#8 4#8) = [] :=
  ⟨⟨_, rfl⟩, by unfold HeaderSound; decide, by decide⟩

theorem witness_LoaderPlacesSegmentsLastWins :
    Memory.wf (romRam []) = true ∧ ∃ m' e, load p8 (imageA 0#8 1#8 5#8) (romRam []) = (m', .ok e) :=
  ⟨by decide, _, _, rfl⟩

/-- Image A into a bank of 16 bytes, which holds it, and into one of 8. -/
theorem witness_PlacementFailsOnlyOutsideTheBanks :
    ImageSound p8 (imageA 0#8 1#8 5#8) ∧
    (∃ m' e, load p8 (imageA 0#8 1#8 5#8) [bank "X" 0x0#32 0x10#32 permRX []] = (m', .ok e)) ∧
    (∃ h ∈ eligibleSegments p8 (imageA 0#8 1#8 5#8), h.covers 8 ∧ ¬Placeable [bank "X" 0x0#32 0x8#32 permRX []] 8) ∧
    Memory.wf [bank "X" 0x0#32 0x8#32 permRX []] = true ∧
    ∃ m', load p8 (imageA 0#8 1#8 5#8) [bank "X" 0x0#32 0x8#32 permRX []] = (m', .error (.outOfBounds 8)) :=
  ⟨by unfold ImageSound HeaderSound; decide, ⟨_, _, rfl⟩,
    by unfold ProgramHeader.covers Placeable; decide, by decide, _, rfl⟩

theorem witness_BringUpConstructsTheSystem :
    Params.topologyProblem p8 = none ∧
      ∃ m entry, load p8 (imageA 0#8 1#8 5#8) (p8.banks.map Bank.fresh) = (m, .ok entry) :=
  ⟨by decide, _, _, rfl⟩

/-- Each condition of D10 broken: a bank past `2^32`, equal ids. -/
theorem witness_BadTopologyRaisesConfigError :
    (∃ e ∈ [(⟨"T", 0xFFFFFF00#32, 0x101#32, permRWX⟩ : BankEntry)], 2 ^ 32 < e.base.toNat + e.size.toNat) ∧
    ¬(([⟨0, none⟩, ⟨0, none⟩] : List HartEntry).map (·.id)).Nodup := by decide

end Sys2Proof.Tests
end

/-! PROOFS of the statements about the state (spec/10_state.md): the register file, freshly created banks, and the flag
`halted`. -/

namespace Sys2Proof.Machine

/-! ## The register file -/

@[simp] theorem RegisterFile.get_zero (r : RegisterFile) : r.get 0 = 0#32 := rfl

@[simp] theorem RegisterFile.set_zero (r : RegisterFile) (v : Word) : r.set 0 v = r := rfl

/-- Every register but 0 is stored, one place below its index. -/
theorem RegisterFile.get_of_ne_zero (r : RegisterFile) {i : Fin 32} (hi : i ≠ 0) :
    r.get i = (r.x[i.val - 1]?).getD 0#32 :=
  if_neg (Fin.val_ne_zero_iff.2 hi)

theorem RegisterFile.set_of_ne_zero (r : RegisterFile) {i : Fin 32} (hi : i ≠ 0) (v : Word) :
    r.set i v = ⟨r.x.setIfInBounds (i.val - 1) v⟩ :=
  if_neg (Fin.val_ne_zero_iff.2 hi)

theorem RegisterFile.get_set_same (r : RegisterFile) {i : Fin 32} (hi : i ≠ 0) (v : Word) :
    (r.set i v).get i = v := by
  have hlt : i.val - 1 < 31 := by omega
  rw [set_of_ne_zero r hi, get_of_ne_zero _ hi, Vector.getElem?_setIfInBounds_self_of_lt hlt, Option.getD_some]

theorem RegisterFile.get_set_other (r : RegisterFile) {i j : Fin 32} (hji : j ≠ i) (v : Word) :
    (r.set i v).get j = r.get j := by
  rcases eq_or_ne i 0 with rfl | hi
  · rw [set_zero]
  · rcases eq_or_ne j 0 with rfl | hj
    · rw [get_zero, get_zero]
    · have hne : i.val - 1 ≠ j.val - 1 := by omega
      rw [set_of_ne_zero r hi, get_of_ne_zero _ hj, get_of_ne_zero r hj, Vector.getElem?_setIfInBounds_ne hne]

@[simp] theorem RegisterFile.get_clear (r : RegisterFile) (i : Fin 32) : r.clear.get i = 0#32 := by
  rcases eq_or_ne i 0 with rfl | hi
  · rfl
  · have hlt : i.val - 1 < 31 := by omega
    rw [get_of_ne_zero _ hi, clear, zero, Vector.getElem?_replicate, if_pos hlt, Option.getD_some]

/-- Settles O1, by the rules of `set`, `get` and `clear`. -/
theorem registerSetThenGet : Obligations.RegisterSetThenGet := fun r i v =>
  ⟨fun hi => hi ▸ r.set_zero v, fun hi => r.get_set_same hi v, r.get_zero, fun _ hj => r.get_set_other hj v,
    r.get_clear i⟩

/-- Settles O2, by the rule of `clear`. -/
theorem registerClearZeroes : Obligations.RegisterClearZeroes := RegisterFile.get_clear

/-! ## Freshly created banks -/

/-- Settles O3: no byte of a fresh bank is listed. -/
theorem freshBankReadsZero : Obligations.FreshBankReadsZero := Bank.byteAt_fresh

/-! ## The flag `halted` -/

/-- A fetch that succeeds neither halts a hart nor lets a halted one run (R69, R71). -/
theorem fetch_halted {p : Params} {m : Memory} {h h' : Hart} {o : List Output} (hf : fetch p m h = .ok (h', o)) :
    h'.halted = h.halted := by
  rcases fetch_cases p m h with ⟨-, e⟩ | ⟨-, w, -, e⟩ | ⟨-, f, -, e⟩
  · obtain ⟨rfl, -⟩ : h.fetchedHalted = h' ∧ [] = o := by simpa [e] using hf
    rfl
  · obtain ⟨rfl, -⟩ : h.fetched w = h' ∧ traceOf p h w = o := by simpa [e] using hf
    rfl
  · simp [e] at hf

/-- Replacing hart `j` keeps hart `k` halted where the new hart `j` is halted if the old one was. -/
theorem halted_after_set {hs : List Hart} {j k : Nat} {old new h : Hart} (hk : hs[k]? = some h)
    (hh : h.halted = true) (hj : hs[j]? = some old) (hkeep : old.halted = true → new.halted = true) :
    ∃ h', (hs.set j new)[k]? = some h' ∧ h'.halted = true := by
  rcases eq_or_ne j k with rfl | hne
  · obtain rfl : h = old := Option.some.inj (hk.symm.trans hj)
    exact ⟨new, List.getElem?_set_self (List.getElem?_eq_some_iff.1 hj).1, hkeep hh⟩
  · exact ⟨h, (List.getElem?_set_ne hne).trans hk, hh⟩

/-- Settles O35, move by move: of the moves of a running system only `reset()` clears the flag of the hart it replaces. -/
theorem haltedIsLeftOnlyByReset : Obligations.HaltedIsLeftOnlyByReset := by
  intro s t k h hrun hk hh hstep hnot
  obtain ⟨-, move⟩ := step_moves hstep
  cases move with
  | built es img _ phase => cases hrun.symm.trans phase
  | loaded es img m entry _ phase => cases hrun.symm.trans phase
  | constructed es entry _ phase => cases hrun.symm.trans phase
  | ticked es r n j g g' o _ hart hfetch eq =>
    subst eq
    exact halted_after_set hk hh hart fun hg => (fetch_halted hfetch).trans hg
  | faulted es r n j g f _ hart _ _ eq =>
    subst eq
    exact halted_after_set hk hh hart fun _ => g.halt_halted
  | commanded es j g _ hart eq =>
    subst eq
    exact halted_after_set hk hh hart fun _ => g.halt_halted
  | wasReset es j a g event hart eq =>
    subst eq
    have hjk : j ≠ k := fun e => hnot a es (e ▸ event)
    exact ⟨h, (List.getElem?_set_ne hjk).trans hk, hh⟩
  | wrote es a v m _ _ eq => exact ⟨h, eq ▸ hk, hh⟩
  | observed es a v _ _ eq => exact ⟨h, eq ▸ hk, hh⟩

end Sys2Proof.Machine

/-! PROOFS of the statements about the bank accessors (spec/20_memory.md): reads and writes whose bytes a bank claims, and
those that run past its end. -/

namespace Sys2Proof.Machine

/-! ## The bytes of an access, and the first one out of range -/

/-- The `n` bytes from address `a` up lie in bank `b`. -/
def Bank.Fits (b : Bank) (a n : Nat) : Prop := ∀ i, i < n → b.claims (a + i) = true

/-- The bytes of an access fit when the first is claimed and the others fit, as the accessors go through them. -/
theorem Bank.fits_succ (b : Bank) (a n : Nat) :
    b.Fits a (n + 1) ↔ b.claims a = true ∧ b.Fits (a + 1) n := by
  simp only [Fits, Nat.forall_lt_succ_left, Nat.add_zero, Nat.add_assoc, Nat.add_comm 1]

theorem Bank.fits_setByte (b : Bank) (a x n : Nat) (v : Byte) : (b.setByte x v).Fits a n ↔ b.Fits a n := Iff.rfl

theorem Width.bytes_le (n : Width) : n.bytes ≤ 4 := by cases n <;> decide

/-! ## One step of `readBytes` and of `writeBytes` -/

theorem Bank.readBytes_succ_of_ok {b : Bank} {a n : Nat} {vs : List Byte} (hc : b.claims a = true)
    (h : b.readBytes (a + 1) n = .ok vs) : b.readBytes a (n + 1) = .ok (b.byteAt a :: vs) := by
  rw [readBytes, if_pos hc, h]

theorem Bank.readBytes_succ_of_error {b : Bank} {a n : Nat} {f : FaultKind} (hc : b.claims a = true)
    (h : b.readBytes (a + 1) n = .error f) : b.readBytes a (n + 1) = .error f := by
  rw [readBytes, if_pos hc, h]

theorem Bank.readBytes_succ_of_unclaimed {b : Bank} {a : Nat} (n : Nat) (hc : b.claims a = false) :
    b.readBytes a (n + 1) = .error (.outOfBounds a) := by
  rw [readBytes, hc, if_neg Bool.false_ne_true]

theorem Bank.writeBytes_cons_of_claims {b : Bank} {a : Nat} (v : Byte) (vs : List Byte) (hc : b.claims a = true) :
    b.writeBytes a (v :: vs) = (b.setByte a v).writeBytes (a + 1) vs := by
  rw [writeBytes, if_pos hc]

theorem Bank.writeBytes_cons_of_unclaimed {b : Bank} {a : Nat} (v : Byte) (vs : List Byte) (hc : b.claims a = false) :
    b.writeBytes a (v :: vs) = (b, some (.outOfBounds a)) := by
  rw [writeBytes, hc, if_neg Bool.false_ne_true]

/-! ## Bank reads (R39) -/

theorem Bank.readBytes_of_fits {b : Bank} {a n : Nat} (h : b.Fits a n) :
    b.readBytes a n = .ok ((List.range n).map fun i => b.byteAt (a + i)) := by
  induction n generalizing a with
  | zero => rfl
  | succ n ih =>
    obtain ⟨hc, hrest⟩ := (b.fits_succ a n).1 h
    rw [readBytes_succ_of_ok hc (ih hrest), List.range_succ_eq_map, List.map_cons, List.map_map]
    simp only [Function.comp_def, Nat.succ_eq_add_one, Nat.add_assoc, Nat.add_comm 1, Nat.add_zero]

theorem Bank.readBytes_of_overrun {b : Bank} {a n i : Nat} (hi : i < n) (h : b.Fits a i)
    (hout : b.claims (a + i) = false) : b.readBytes a n = .error (.outOfBounds (a + i)) := by
  induction n generalizing a i with
  | zero => cases hi
  | succ n ih =>
    cases i with
    | zero => exact readBytes_succ_of_unclaimed n hout
    | succ i =>
      obtain ⟨hc, hrest⟩ := (b.fits_succ a i).1 h
      have hnext : a + (i + 1) = a + 1 + i := by omega
      rw [hnext] at hout ⊢
      exact readBytes_succ_of_error hc (ih (Nat.lt_of_succ_lt_succ hi) hrest hout)

theorem Bank.read_of_readBytes {b : Bank} {a : Nat} {n : Width} {vs : List Byte}
    (h : b.readBytes a n.bytes = .ok vs) : b.read a n = .ok (Word.ofBytes vs) := by
  rw [read, h]

theorem Bank.read_of_overrun {b : Bank} {a i : Nat} {n : Width} (hi : i < n.bytes) (h : b.Fits a i)
    (hout : b.claims (a + i) = false) : b.read a n = .error (.outOfBounds (a + i)) := by
  rw [read, readBytes_of_overrun hi h hout]

/-- The word of `n ≤ 4` bytes given by their index is their little-endian sum, and below `2^(8n)`. -/
theorem ofBytes_map_range_toNat {n : Nat} (hn : n ≤ 4) (f : Nat → Byte) :
    (Word.ofBytes ((List.range n).map f)).toNat = ((List.range n).map fun i => (f i).toNat * 2 ^ (8 * i)).sum ∧
      (Word.ofBytes ((List.range n).map f)).toNat < 2 ^ (8 * n) := by
  have hlen : ((List.range n).map f).length = n := by simp
  obtain ⟨hsum, hlt⟩ := Word.ofBytes_toNat ((List.range n).map f) (hlen.trans_le hn)
  rw [hlen] at hsum hlt
  refine ⟨hsum.trans (congrArg List.sum (List.map_congr_left fun i hi => ?_)), hlt⟩
  have hget : ((List.range n).map f).getD i 0#8 = f i := by simp [List.mem_range.1 hi]
  rw [hget]

/-- Settles O5: the bytes read are those of the bank in ascending order, and their word is the little-endian sum. -/
theorem bankReadIsLittleEndian : Obligations.BankReadIsLittleEndian := fun _ _ n =>
  ⟨fun hfit => ⟨_, Bank.read_of_readBytes (Bank.readBytes_of_fits hfit), ofBytes_map_range_toNat n.bytes_le _⟩,
    fun _ hi hfit hout => Bank.read_of_overrun hi hfit hout⟩

/-! ## Bank writes (R40) -/

theorem Bank.writeBytes_of_fits {vs : List Byte} {b : Bank} {a : Nat} (h : b.Fits a vs.length) :
    (b.writeBytes a vs).2 = none := by
  induction vs generalizing b a with
  | nil => rfl
  | cons v vs ih =>
    obtain ⟨hc, hrest⟩ := (b.fits_succ a vs.length).1 h
    rw [writeBytes_cons_of_claims v vs hc]
    exact ih ((b.fits_setByte (a + 1) a _ v).2 hrest)

theorem Bank.writeBytes_of_overrun {vs : List Byte} {b : Bank} {a i : Nat} (hi : i < vs.length) (h : b.Fits a i)
    (hout : b.claims (a + i) = false) : (b.writeBytes a vs).2 = some (.outOfBounds (a + i)) := by
  induction vs generalizing b a i with
  | nil => cases hi
  | cons v vs ih =>
    cases i with
    | zero => exact congrArg Prod.snd (writeBytes_cons_of_unclaimed v vs hout)
    | succ i =>
      obtain ⟨hc, hrest⟩ := (b.fits_succ a i).1 h
      have hnext : a + (i + 1) = a + 1 + i := by omega
      rw [hnext] at hout ⊢
      rw [writeBytes_cons_of_claims v vs hc]
      exact ih (Nat.lt_of_succ_lt_succ hi) ((b.fits_setByte (a + 1) a _ v).2 hrest) hout

theorem Bank.write_of_overrun {b : Bank} {a i : Nat} {n : Width} (v : Word) (hi : i < n.bytes) (h : b.Fits a i)
    (hout : b.claims (a + i) = false) : (b.write a n v).2 = some (.outOfBounds (a + i)) :=
  writeBytes_of_overrun (by rwa [Word.toBytes_length]) h hout

@[simp] theorem Bank.writeBytes_claims (b : Bank) (a : Nat) (vs : List Byte) :
    (b.writeBytes a vs).1.claims = b.claims := claims_congr (writeBytes_toBankEntry vs b a)

theorem Bank.write_of_fits {b : Bank} {a : Nat} {n : Width} (v : Word) (h : b.Fits a n.bytes) :
    (b.write a n v).2 = none :=
  writeBytes_of_fits (by rwa [Word.toBytes_length])

/-- A store leaves the bytes below its first address. -/
theorem Bank.byteAt_writeBytes_below {vs : List Byte} {b : Bank} {a x : Nat} (hb : b.wf = true) (hx : x < a) :
    (b.writeBytes a vs).1.byteAt x = b.byteAt x := by
  induction vs generalizing b a with
  | nil => rfl
  | cons v vs ih =>
    cases hc : b.claims a with
    | false => rw [writeBytes_cons_of_unclaimed v vs hc]
    | true =>
      rw [writeBytes_cons_of_claims v vs hc, ih (wf_setByte v hb hc) (Nat.lt_succ_of_lt hx),
        byteAt_setByte_other hb v hx.ne]

/-- Bytes that fit read back as they were stored. -/
theorem Bank.readBytes_writeBytes {vs : List Byte} {b : Bank} {a : Nat} (hb : b.wf = true) (h : b.Fits a vs.length) :
    (b.writeBytes a vs).1.readBytes a vs.length = .ok vs := by
  induction vs generalizing b a with
  | nil => rfl
  | cons v vs ih =>
    obtain ⟨hc, hrest⟩ := (b.fits_succ a vs.length).1 h
    have hb' : (b.setByte a v).wf = true := wf_setByte v hb hc
    have hfirst : ((b.setByte a v).writeBytes (a + 1) vs).1.claims a = true := by simpa using hc
    have htail := ih hb' ((b.fits_setByte (a + 1) a _ v).2 hrest)
    rw [writeBytes_cons_of_claims v vs hc, List.length_cons, readBytes_succ_of_ok hfirst htail,
      byteAt_writeBytes_below hb' (Nat.lt_succ_self a), byteAt_setByte_same hb]

/-- An access that fits reads back the low bytes of the word stored. -/
theorem Bank.read_write {b : Bank} {a : Nat} {n : Width} (v : Word) (hb : b.wf = true) (h : b.Fits a n.bytes) :
    (b.write a n v).1.read a n = .ok (Word.ofBytes (Word.toBytes n.bytes v)) := by
  have hlen := Word.toBytes_length n.bytes v
  have hback := readBytes_writeBytes (vs := Word.toBytes n.bytes v) hb (hlen.symm ▸ h)
  rw [hlen] at hback
  exact read_of_readBytes hback

/-- Settles O7: the stored bank has the geometry of the one it replaces, and its bytes read back as stored. -/
theorem storeThenFetchReturnsValue : Obligations.StoreThenFetchReturnsValue := by
  intro m a n v b hm hs hfit
  have hb : b.wf = true := (Memory.wf_iff m).1 hm b (Memory.select_mem hs).1
  exact ⟨(b.write a n v).1, _, Prod.ext rfl (Bank.write_of_fits v hfit),
    Memory.select_replace_self hs (b.write_toBankEntry a n v), Bank.read_write v hb hfit,
    Word.ofBytes_toBytes_toNat n.bytes n.bytes_le v⟩

/-! ## Accesses through the collection (R37, R46, R47) -/

/-- An access that its bank permits, or that is not checked, uses the bank `Decode(a)` selects. -/
theorem Memory.route_of_allowed {p : Params} {m : Memory} {a : Word} {k : AccessKind} {b : Bank}
    (hs : m.select a.toNat = some b) (hp : p.enforcePermissions = true → k.allowed b.perm = true) :
    m.route p a k = .ok b := by
  have hpass : ¬(p.enforcePermissions && !k.allowed b.perm) = true := by simpa using hp
  simp only [route, hs, if_neg hpass]

theorem Memory.read_of_route {p : Params} {m : Memory} {a : Word} {k : AccessKind} {b : Bank} (n : Width)
    (h : m.route p a k = .ok b) : m.read p a n k = b.read a.toNat n := by
  rw [read, h]

theorem Memory.write_of_route {p : Params} {m : Memory} {a : Word} {b : Bank} (n : Width) (v : Word)
    (h : m.route p a .store = .ok b) :
    m.write p a n v = (m.replace a.toNat (b.write a.toNat n v).1, (b.write a.toNat n v).2) := by
  rw [write, h]

/-- Settles O9: the access uses the bank its first byte selects, and the accessors of that bank stop at its end. -/
theorem accessOverrunningItsBankFails : Obligations.AccessOverrunningItsBankFails := by
  intro p m a n b i hs hi hfit hout
  constructor
  · intro k hp
    rw [Memory.read_of_route n (Memory.route_of_allowed hs hp)]
    exact Bank.read_of_overrun hi hfit hout
  · intro v hp
    rw [Memory.write_of_route n v (Memory.route_of_allowed hs hp)]
    exact Bank.write_of_overrun v hi hfit hout

end Sys2Proof.Machine

/-! PROOFS of the statements about faults and refusals (spec/60_exceptions.md): the fault list only grows. -/

namespace Sys2Proof.Machine

/-! ## What an outcome does to the fault list -/

/-- The outcome starts from the fault list `fs` and keeps it: a next state may add records at its end, a raised
fault adds its own record, a refusal adds none (R101, R107). The other outcomes carry no state. -/
def Result.KeepsRecords (fs : List FaultRecord) : Result → Prop
  | .next t => ∃ new, t.faults = fs ++ new
  | .fault (.raised r t) => t.faults = fs ++ [r]
  | .refused (.unclassifiedWord _ _ t) => t.faults = fs
  | _ => True

/-- A next state with the same fault list. -/
theorem Result.keepsRecords_next {fs : List FaultRecord} {t : State} (h : t.faults = fs) :
    Result.KeepsRecords fs (.next t) :=
  ⟨[], h.trans (List.append_nil fs).symm⟩

/-! ## Ticks -/

theorem raise_keepsRecords (k : Nat) (f : FaultKind) (s : State) : (raise k f s).KeepsRecords s.faults := by
  rcases raise_cases k f s with ⟨-, e⟩ | ⟨h, -, -, e⟩ | ⟨h, -, -, e⟩ <;> rw [e]
  · trivial
  · exact s.record_faults _
  · exact ⟨[⟨f, .hart h.id⟩], rfl⟩

theorem exec_keepsRecords (i : Instr) (s : State) : Result.KeepsRecords s.faults (exec i s) := by
  cases i with
  | nop => exact Result.keepsRecords_next rfl
  | unclassified w =>
    change (execUnclassified w s).KeepsRecords s.faults
    rw [execUnclassified_eq]
    rcases executeUnclassified_cases w s with ⟨-, e⟩ | ⟨-, -, e⟩ | ⟨-, h, -, e⟩ <;> rw [e]
    · exact Result.keepsRecords_next rfl
    · trivial
    · exact s.markRefused_faults

theorem tick_keepsRecords (k : Nat) (s : State) : (tick k s).KeepsRecords s.faults := by
  rcases tick_cases k s with ⟨-, e⟩ | ⟨h, f, -, -, e⟩ | ⟨h, h', o, -, -, e⟩ <;> rw [e]
  · trivial
  · exact raise_keepsRecords k f s
  · exact exec_keepsRecords (decode h'.ir) (s.afterFetch k h' o)

/-! ## The host's steps -/

theorem raiseHost_keepsRecords (f : FaultKind) (s : State) : (raiseHost f s).KeepsRecords s.faults :=
  s.record_faults ⟨f, .host⟩

theorem updateHart_keepsRecords (k : Nat) (g : Hart → Hart) (s : State) :
    (updateHart k g s).KeepsRecords s.faults := by
  unfold updateHart
  cases s.harts[k]? with
  | none => trivial
  | some h => exact Result.keepsRecords_next rfl

theorem hostWriteStep_keepsRecords (a : Nat) (v : Byte) (s : State) :
    (hostWriteStep a v s).KeepsRecords s.faults := by
  unfold hostWriteStep
  cases s.banks.hostWrite a v with
  | ok m => exact Result.keepsRecords_next rfl
  | error f => exact raiseHost_keepsRecords f s

theorem hostReadStep_keepsRecords (a : Nat) (s : State) : (hostReadStep a s).KeepsRecords s.faults := by
  unfold hostReadStep
  cases s.banks.hostRead a with
  | ok v => exact Result.keepsRecords_next rfl
  | error f => exact raiseHost_keepsRecords f s

theorem buildBanks_keepsRecords (img : List Byte) (s : State) : (buildBanks img s).KeepsRecords s.faults := by
  unfold buildBanks
  cases Params.topologyProblem s.params with
  | none => exact Result.keepsRecords_next rfl
  | some r => exact raiseHost_keepsRecords (.configError r) s

/-- A load that fails keeps the bytes it has placed (R95), and its fault is the host's. -/
theorem loadImage_keepsRecords (img : List Byte) (s : State) : (loadImage img s).KeepsRecords s.faults := by
  unfold loadImage
  rcases load s.params img s.banks with ⟨m, f | entry⟩
  · exact raiseHost_keepsRecords f (s.setBanks m)
  · exact Result.keepsRecords_next rfl

/-! ## Steps -/

theorem drive_keepsRecords (s : State) : (drive s).KeepsRecords s.faults := by
  unfold drive
  split
  · trivial
  · cases s.nextRound with
    | nil => trivial
    | cons k rest => exact tick_keepsRecords k (s.countTick k rest)

theorem proceed_keepsRecords (s : State) : (proceed s).KeepsRecords s.faults := by
  unfold proceed
  cases s.phase with
  | build img => exact buildBanks_keepsRecords img s
  | load img => exact loadImage_keepsRecords img s
  | construct entry => exact Result.keepsRecords_next rfl
  | running => exact drive_keepsRecords s

theorem perform_keepsRecords (e : Event) (s : State) : (perform e s).KeepsRecords s.faults := by
  cases e with
  | auto => exact proceed_keepsRecords s
  | tick k => exact tick_keepsRecords k s
  | halt k => exact updateHart_keepsRecords k Hart.halt s
  | reset k r => exact updateHart_keepsRecords k (Hart.reset r) s
  | writeByte a v => exact hostWriteStep_keepsRecords a v s
  | readByte a => exact hostReadStep_keepsRecords a s

theorem step_keepsRecords (s : State) : Result.KeepsRecords s.faults (step s) := by
  unfold step advance
  split
  · trivial
  · cases s.schedule with
    | nil => exact proceed_keepsRecords s
    | cons e es => exact perform_keepsRecords e (s.setSchedule es)

/-- Settles O32: every operation a step is made of keeps the records, and only `raise` and `raiseHost` add one. -/
theorem faultRecordsAreNeverCleared : Obligations.FaultRecordsAreNeverCleared := by
  intro s
  have hs := step_keepsRecords s
  refine ⟨fun t h => ?_, fun r t h => ?_, fun w a t h => ?_⟩ <;> rw [h] at hs <;> exact hs

end Sys2Proof.Machine

/-! PROOFS of the statements about the encoding (spec/30_encoding.md): decode and encode are inverse to each other. -/

namespace Sys2Proof

@[simp] theorem decode_nopWord : decode nopWord = .nop := if_pos rfl

theorem decode_of_ne {w : Word} (hw : w ≠ nopWord) : decode w = .unclassified w := if_neg hw

theorem decode_encode {i : Instr} (hi : i.WellFormed) : decode (encode i) = i := by
  cases i with
  | nop => exact decode_nopWord
  | unclassified w => exact decode_of_ne (bne_iff_ne.1 hi)

@[simp] theorem encode_decode (w : Word) : encode (decode w) = w := by
  rcases eq_or_ne w nopWord with rfl | hw
  · rw [decode_nopWord, encode]
  · rw [decode_of_ne hw, encode]

theorem decode_wellFormed (w : Word) : (decode w).WellFormed := by
  rcases eq_or_ne w nopWord with rfl | hw
  · rw [decode_nopWord]; rfl
  · rw [decode_of_ne hw]; exact bne_iff_ne.2 hw

/-- The bytes of a word followed by any bytes decode as that word. -/
theorem decodeBytes_toBytes (w : Word) (rest : List Byte) :
    decodeBytes (Word.toBytes 4 w ++ rest) = .ok (decode w, rest) :=
  congrArg (fun v => Except.ok (decode v, rest)) (Word.ofBytes_toBytes w)

/-- Settles O15: the word of a well-formed descriptor is its own, and its four bytes give that word again. -/
theorem decodeOfEncodeIsIdentity : Obligations.DecodeOfEncodeIsIdentity := by
  intro i rest hi
  have hword := decode_encode hi
  exact ⟨hword, (decodeBytes_toBytes (encode i) rest).trans (by rw [hword])⟩

/-- Settles O16: the first four bytes are those of the word they make, and no word loses a bit in its descriptor. -/
theorem encodeOfDecodeIsIdentity : Obligations.EncodeOfDecodeIsIdentity := by
  intro bs hlen
  match bs, hlen with
  | b0 :: b1 :: b2 :: b3 :: rest, _ =>
    refine ⟨decode (Word.ofBytes [b0, b1, b2, b3]), rest, rfl, decode_wellFormed _, ?_⟩
    rw [encodeBytes, encode_decode, Word.toBytes_ofBytes]
    rfl

/-- Settles O17: the decode compares the word with the no-op's. -/
theorem decodeRecognisesTheNopAlone : Obligations.DecodeRecognisesTheNopAlone := fun _ =>
  ⟨fun h => h ▸ decode_nopWord, decode_of_ne⟩

/-- Settles O18: each of the words is compared with the no-op's. -/
theorem specWordsDecode : Obligations.SpecWordsDecode :=
  ⟨decode_nopWord, rfl, rfl, rfl, decode_of_ne (by decide), decode_of_ne (by decide), decode_of_ne (by decide),
    decode_of_ne (by decide), decode_of_ne (by decide)⟩

end Sys2Proof

/-! PROOFS of the invariants of a step: the canonical form and the topology, aligned program counters, registers that
read 0, and what a running system never changes. Each follows from what a step can do to the banks and to the harts. -/

namespace Sys2Proof.Machine

/-! ## What a step can do, bring-up and running system apart -/

/-- The bring-up steps of R122, by what they leave. -/
inductive BringUp (s t : State) : Prop
  | built (img : List Byte) (phase : s.phase = .build img) (good : Params.topologyProblem s.params = none)
      (banks : t.banks = s.params.banks.map Bank.fresh) (harts : t.harts = s.harts) (due : t.phase = .load img)
  | loaded (img : List Byte) (entry : Word) (phase : s.phase = .load img)
      (banks : t.banks = (load s.params img s.banks).1) (harts : t.harts = s.harts) (due : t.phase = .construct entry)
  | constructed (entry : Word) (phase : s.phase = .construct entry) (banks : t.banks = s.banks)
      (harts : t.harts = s.params.harts.map (HartEntry.build entry)) (due : t.phase = .running)

/-- What one step from `s` to `t` can make of hart `k`, which is `h`: a fetch of its tick, a halt, or a `reset()`. -/
inductive HartMove (s t : State) (k : Nat) (h : Hart) : Hart → Prop
  | fetched (w : Word) (running : h.halted = false) (word : fetchWord s.params s.banks h = .ok w) :
      HartMove s t k h (h.fetched w)
  | synthesized (halted : h.halted = true) : HartMove s t k h h.fetchedHalted
  | faulted (f : FaultKind) (fetch : fetch s.params s.banks h = .error f) (scope : s.params.faultScope = .haltHart)
      (record : t.faults = s.faults ++ [⟨f, .hart h.id⟩]) : HartMove s t k h h.halt
  | commanded (es : List Event) (event : s.schedule = .halt k :: es) : HartMove s t k h h.halt
  | wasReset (a : Option Word) (es : List Event) (event : s.schedule = .reset k a :: es) :
      HartMove s t k h (Hart.reset a h)

/-- The bank collection is unchanged, or the host has written a byte of it. -/
def BanksKeptOrWritten (s t : State) : Prop :=
  t.banks = s.banks ∨ ∃ a v es, s.schedule = .writeByte a v :: es ∧ s.banks.hostWrite a v = .ok t.banks

/-- The harts are unchanged, or one of them has moved. -/
def HartsKeptOrMoved (s t : State) : Prop :=
  t.harts = s.harts ∨ ∃ k h h', s.harts[k]? = some h ∧ HartMove s t k h h' ∧ t.harts = s.harts.set k h'

/-- What a step that is no bring-up step can do. -/
structure OrdinaryStep (s t : State) : Prop where
  params : t.params = s.params
  phase  : t.phase = s.phase
  banks  : BanksKeptOrWritten s t
  harts  : HartsKeptOrMoved s t

theorem hartMove_of_fetch {s t : State} {k : Nat} {h h' : Hart} {o : List Output}
    (hf : fetch s.params s.banks h = .ok (h', o)) : HartMove s t k h h' := by
  rcases fetch_cases s.params s.banks h with ⟨hh, e⟩ | ⟨hh, w, hw, e⟩ | ⟨-, f, -, e⟩
  · obtain ⟨rfl, -⟩ : h.fetchedHalted = h' ∧ [] = o := by simpa [e] using hf
    exact .synthesized hh
  · obtain ⟨rfl, -⟩ : h.fetched w = h' ∧ traceOf s.params h w = o := by simpa [e] using hf
    exact .fetched w hh hw
  · simp [e] at hf

theorem Moves.bringUp_or_ordinary {s t : State} (move : Moves s t) :
    (BringUp s t ∧ t.params = s.params) ∨ OrdinaryStep s t := by
  cases move with
  | built es img _ phase good eq => subst eq; exact .inl ⟨.built img phase good rfl rfl rfl, rfl⟩
  | loaded es img m entry _ phase load eq =>
    subst eq
    exact .inl ⟨.loaded img entry phase (congrArg Prod.fst load).symm rfl rfl, rfl⟩
  | constructed es entry _ phase eq => subst eq; exact .inl ⟨.constructed entry phase rfl rfl rfl, rfl⟩
  | ticked es r n k h h' o _ hart fetch eq =>
    subst eq
    exact .inr ⟨rfl, rfl, .inl rfl, .inr ⟨k, h, h', hart, hartMove_of_fetch fetch, rfl⟩⟩
  | faulted es r n k h f _ hart fetch scope eq =>
    subst eq
    exact .inr ⟨rfl, rfl, .inl rfl, .inr ⟨k, h, h.halt, hart, .faulted f fetch scope rfl, rfl⟩⟩
  | commanded es k h event hart eq =>
    subst eq
    exact .inr ⟨rfl, rfl, .inl rfl, .inr ⟨k, h, h.halt, hart, .commanded es event, rfl⟩⟩
  | wasReset es k a h event hart eq =>
    subst eq
    exact .inr ⟨rfl, rfl, .inl rfl, .inr ⟨k, h, _, hart, .wasReset a es event, rfl⟩⟩
  | wrote es a v m event write eq => subst eq; exact .inr ⟨rfl, rfl, .inr ⟨a, v, es, event, write⟩, .inl rfl⟩
  | observed es a v event read eq => subst eq; exact .inr ⟨rfl, rfl, .inl rfl, .inl rfl⟩

/-- In a running system every step is an ordinary one. -/
theorem ordinaryStep_of_running {s t : State} (hrun : s.phase = .running) (h : step s = .next t) :
    OrdinaryStep s t := by
  rcases (step_moves h).2.bringUp_or_ordinary with ⟨up, -⟩ | ord
  · cases up with
    | built img phase => cases hrun.symm.trans phase
    | loaded img entry phase => cases hrun.symm.trans phase
    | constructed entry phase => cases hrun.symm.trans phase
  · exact ord

/-- What is pending after a step is what was pending before it, without the event performed. -/
theorem Moves.pending {s t : State} (move : Moves s t) : s.Pending t.schedule := by
  cases move with
  | built es img pending _ _ eq => exact eq ▸ pending
  | loaded es img m entry pending _ _ eq => exact eq ▸ pending
  | constructed es entry pending _ eq => exact eq ▸ pending
  | ticked es r n k h h' o pending _ _ eq => exact eq ▸ pending
  | faulted es r n k h f pending _ _ _ eq => exact eq ▸ pending
  | commanded es k h event _ eq => exact eq ▸ .inr ⟨_, event⟩
  | wasReset es k a h event _ eq => exact eq ▸ .inr ⟨_, event⟩
  | wrote es a v m event _ eq => exact eq ▸ .inr ⟨_, event⟩
  | observed es a v event _ eq => exact eq ▸ .inr ⟨_, event⟩

theorem State.Pending.mem_schedule {s : State} {es : List Event} (pending : s.Pending es) {e : Event} (he : e ∈ es) :
    e ∈ s.schedule := by
  rcases pending with ⟨-, rfl⟩ | ⟨d, hs⟩
  · cases he
  · exact hs ▸ List.mem_cons_of_mem d he

/-! ## Harts -/

theorem HartMove.id_eq {s t : State} {k : Nat} {h h' : Hart} (move : HartMove s t k h h') : h'.id = h.id := by
  cases move <;> rfl

/-- A property of every hart that each move keeps, a step keeps. -/
theorem HartsKeptOrMoved.forall {s t : State} {P : Hart → Prop} (harts : HartsKeptOrMoved s t)
    (hkeep : ∀ k h h', HartMove s t k h h' → P h → P h') (hs : ∀ h ∈ s.harts, P h) : ∀ h ∈ t.harts, P h := by
  rcases harts with e | ⟨k, h, h', hk, move, e⟩ <;> rw [e]
  · exact hs
  · intro g hg
    rcases List.mem_or_eq_of_mem_set hg with hg | rfl
    · exact hs g hg
    · exact hkeep k h g move (hs h (List.mem_of_getElem? hk))

theorem HartsKeptOrMoved.hartIds_eq {s t : State} (harts : HartsKeptOrMoved s t) : t.hartIds = s.hartIds := by
  rcases harts with e | ⟨k, h, h', hk, move, e⟩
  · exact congrArg (List.map Hart.id) e
  · obtain ⟨hlt, rfl⟩ := List.getElem?_eq_some_iff.1 hk
    calc t.hartIds = (s.harts.set k h').map Hart.id := congrArg (List.map Hart.id) e
      _ = s.hartIds.set k (s.hartIds[k]'(by simpa [State.hartIds] using hlt)) := by
        rw [List.map_set, move.id_eq]; simp [State.hartIds]
      _ = s.hartIds := List.set_getElem_self _

/-! ## The bank collection -/

theorem BanksKeptOrWritten.wf {s t : State} (banks : BanksKeptOrWritten s t) (hs : Memory.wf s.banks = true) :
    Memory.wf t.banks = true := by
  rcases banks with e | ⟨a, v, es, -, hw⟩
  · exact e ▸ hs
  · exact Memory.wf_hostWrite hs hw

theorem BanksKeptOrWritten.bankEntries_eq {s t : State} (banks : BanksKeptOrWritten s t) :
    t.bankEntries = s.bankEntries := by
  rcases banks with e | ⟨a, v, es, -, hw⟩
  · exact congrArg (List.map Bank.toBankEntry) e
  · exact Memory.entries_hostWrite hw

/-! ## The machine's invariant -/

theorem bankEntries_eq_nil_iff (s : State) : s.bankEntries = [] ↔ s.banks = [] := List.map_eq_nil_iff

theorem hartIds_eq_nil_iff (s : State) : s.hartIds = [] ↔ s.harts = [] := List.map_eq_nil_iff

/-- What `TopologyInv` speaks of: the parameters, the phase, the topology entries and the hart ids. -/
theorem State.TopologyInv.congr {s t : State} (hs : s.TopologyInv) (hparams : t.params = s.params)
    (hphase : t.phase = s.phase) (hbanks : t.bankEntries = s.bankEntries) (hharts : t.hartIds = s.hartIds) :
    t.TopologyInv := by
  unfold TopologyInv at hs ⊢
  rw [← bankEntries_eq_nil_iff, ← hartIds_eq_nil_iff] at hs ⊢
  rw [hphase, hparams, hbanks, hharts]
  exact hs

theorem hartIds_of_built {t : State} {entry : Word} {hs : List HartEntry}
    (h : t.harts = hs.map (HartEntry.build entry)) : t.hartIds = hs.map (·.id) := by
  rw [State.hartIds, h, List.map_map]
  rfl

theorem bankEntries_of_fresh {t : State} {es : List BankEntry} (h : t.banks = es.map Bank.fresh) :
    t.bankEntries = es := by
  rw [State.bankEntries, h, List.map_map]
  exact List.map_id es

theorem BringUp.inv {s t : State} (up : BringUp s t) (hparams : t.params = s.params) (hs : s.Inv) : t.Inv := by
  obtain ⟨hwf, htop⟩ := hs
  unfold State.TopologyInv at htop
  cases up with
  | built img phase good banks harts due =>
    rw [phase] at htop
    refine ⟨banks ▸ wf_freshBanks _, ?_⟩
    unfold State.TopologyInv
    rw [due, hparams]
    exact ⟨good, bankEntries_of_fresh banks, harts.trans htop.2⟩
  | loaded img entry phase banks harts due =>
    rw [phase] at htop
    obtain ⟨good, hbanks, hharts⟩ := htop
    refine ⟨banks ▸ wf_load s.params img hwf, ?_⟩
    unfold State.TopologyInv
    rw [due, hparams]
    refine ⟨good, ?_, harts.trans hharts⟩
    rw [State.bankEntries, banks, entries_load]
    exact hbanks
  | constructed entry phase banks harts due =>
    rw [phase] at htop
    obtain ⟨good, hbanks, -⟩ := htop
    refine ⟨banks ▸ hwf, ?_⟩
    unfold State.TopologyInv
    rw [due, hparams]
    exact ⟨good, (congrArg (List.map Bank.toBankEntry) banks).trans hbanks, hartIds_of_built harts⟩

theorem OrdinaryStep.inv {s t : State} (ord : OrdinaryStep s t) (hs : s.Inv) : t.Inv :=
  ⟨ord.banks.wf hs.1, hs.2.congr ord.params ord.phase ord.banks.bankEntries_eq ord.harts.hartIds_eq⟩

/-- Settles O38: each bring-up step establishes what its next phase asks for, and every other step keeps the topology
entries, the hart ids and the canonical form. -/
theorem stepKeepsTheInvariant : Obligations.StepKeepsTheInvariant := by
  intro s t hs hstep
  rcases (step_moves hstep).2.bringUp_or_ordinary with ⟨up, hparams⟩ | ord
  · exact up.inv hparams hs
  · exact ord.inv hs

/-- Settles O39: at reset the banks are fresh and the harts those of the scenario; at power-on there are none. -/
theorem invariantHoldsAtResetAndPowerOn : Obligations.InvariantHoldsAtResetAndPowerOn :=
  ⟨⟨reset_memory_wf, by decide, bankEntries_of_fresh rfl, hartIds_of_built rfl⟩, fun _ _ => ⟨rfl, rfl, rfl⟩⟩

/-! ## What never changes in a running system -/

/-- Settles O41: a step of a running system is an ordinary one. -/
theorem geometryAndIdsAreConstant : Obligations.GeometryAndIdsAreConstant := by
  intro s t hrun hstep
  have ord := ordinaryStep_of_running hrun hstep
  exact ⟨ord.banks.bankEntries_eq, ord.harts.hartIds_eq, ord.params, ord.phase.trans hrun⟩

/-- Settles O42: the one ordinary step that changes a bank is the host's write. -/
theorem onlyTheHostWritesMemory : Obligations.OnlyTheHostWritesMemory := by
  intro s t hrun hstep hne
  rcases (ordinaryStep_of_running hrun hstep).banks with e | ⟨a, v, es, event, -⟩
  · exact absurd e hne
  · exact ⟨a, v, es, event⟩

/-! ## Aligned program counters -/

theorem aligned_add_four {w : Word} (hw : Aligned w) : Aligned (w + 4#32) := by
  have h4 : (4#32).toNat = 4 := rfl
  unfold Aligned at hw ⊢
  rw [BitVec.toNat_add, h4]
  omega

theorem HartMove.aligned {s t : State} {k : Nat} {h h' : Hart} (move : HartMove s t k h h')
    (hevents : ∀ e ∈ s.schedule, e.AlignedReset) (ha : Aligned h.pc ∧ Aligned h.resetAddr) :
    Aligned h'.pc ∧ Aligned h'.resetAddr := by
  obtain ⟨hpc, hreset⟩ := ha
  cases move with
  | fetched w _ _ => exact ⟨aligned_add_four hpc, hreset⟩
  | synthesized _ => exact ⟨hpc, hreset⟩
  | faulted f _ _ _ => exact ⟨hpc, hreset⟩
  | commanded es _ => exact ⟨hpc, hreset⟩
  | wasReset a es event =>
    cases a with
    | none => exact ⟨hreset, hreset⟩
    | some r =>
      have hr : Aligned r := hevents (.reset k (some r)) (event ▸ List.mem_cons_self)
      exact ⟨hr, hr⟩

/-- Settles O40: a `pc` changes by 4 or to an aligned reset address, and no step adds a pending event. -/
theorem stepKeepsPcAligned : Obligations.StepKeepsPcAligned := by
  intro s t ⟨hrun, hharts, hevents⟩ hstep
  have ord := ordinaryStep_of_running hrun hstep
  exact ⟨ord.phase.trans hrun, ord.harts.forall (fun _ _ _ move => move.aligned hevents) hharts,
    fun e he => hevents e ((step_moves hstep).2.pending.mem_schedule he)⟩

/-! ## Registers -/

theorem RegisterFile.get_zeroFile (i : Fin 32) : RegisterFile.zero.get i = 0#32 := RegisterFile.zero.get_clear i

/-- A move keeps the register file or is a `reset()`. -/
theorem HartMove.regs {s t : State} {k : Nat} {h h' : Hart} (move : HartMove s t k h h') :
    h'.regs = h.regs ∨ h'.RegistersZero ∧ ∃ a es, s.schedule = .reset k a :: es := by
  cases move with
  | fetched w _ _ => exact .inl rfl
  | synthesized _ => exact .inl rfl
  | faulted f _ _ _ => exact .inl rfl
  | commanded es _ => exact .inl rfl
  | wasReset a es event => exact .inr ⟨RegisterFile.get_zeroFile, a, es, event⟩

theorem HartMove.registersZero {s t : State} {k : Nat} {h h' : Hart} (move : HartMove s t k h h')
    (hz : h.RegistersZero) : h'.RegistersZero := by
  rcases move.regs with e | ⟨hz', -⟩
  · exact fun i => e ▸ hz i
  · exact hz'

theorem BringUp.registersZero {s t : State} (up : BringUp s t) (hs : ∀ h ∈ s.harts, h.RegistersZero) :
    ∀ h ∈ t.harts, h.RegistersZero := by
  cases up with
  | built img _ _ _ harts _ => exact harts ▸ hs
  | loaded img entry _ _ harts _ => exact harts ▸ hs
  | constructed entry _ _ harts _ =>
    intro h hh
    obtain ⟨e, -, rfl⟩ := List.mem_map.1 (harts ▸ hh)
    exact RegisterFile.get_zeroFile

/-- Settles O44: a hart is constructed with its registers 0, and no move writes another value to one. -/
theorem stepKeepsRegistersZero : Obligations.StepKeepsRegistersZero := by
  intro s t hs hstep
  rcases (step_moves hstep).2.bringUp_or_ordinary with ⟨up, -⟩ | ord
  · exact up.registersZero hs
  · exact ord.harts.forall (fun _ _ _ move => move.registersZero) hs

/-- Where hart `k` differs after the step, it is the hart that has moved. -/
theorem HartsKeptOrMoved.hartMove_of_ne {s t : State} (harts : HartsKeptOrMoved s t) {k : Nat} {h h' : Hart}
    (hk : s.harts[k]? = some h) (hk' : t.harts[k]? = some h') (hne : h' ≠ h) : HartMove s t k h h' := by
  rcases harts with e | ⟨j, g, g', hj, move, e⟩ <;> rw [e] at hk'
  · exact absurd (Option.some.inj (hk'.symm.trans hk)) hne
  · rcases eq_or_ne j k with rfl | hjk
    · obtain rfl : g = h := Option.some.inj (hj.symm.trans hk)
      rw [List.getElem?_set_self (List.getElem?_eq_some_iff.1 hj).1] at hk'
      exact Option.some.inj hk' ▸ move
    · rw [List.getElem?_set_ne hjk] at hk'
      exact absurd (Option.some.inj (hk'.symm.trans hk)) hne

/-- Settles O43: of the moves of a hart only `reset()` changes its register file. -/
theorem registersChangeOnlyByReset : Obligations.RegistersChangeOnlyByReset := by
  intro s t k h h' hrun hstep hk hk' hne
  have move := (ordinaryStep_of_running hrun hstep).harts.hartMove_of_ne hk hk' fun e => hne (congrArg Hart.regs e)
  rcases move.regs with e | ⟨hz, a, es, event⟩
  · exact absurd e hne
  · exact ⟨a, es, event, hz⟩

end Sys2Proof.Machine

/-! PROOFS that tracing changes no state (spec/60_exceptions.md R116, decision D25): what every operation leaves,
outputs apart, depends on its state without outputs and verbose flag alone. -/

namespace Sys2Proof.Machine

/-! ## What stays of an outcome without its outputs -/

/-- Without outputs and verbose flag, the operation does from a state what it does from the quiet state. -/
def QuietCongr (f : State → Result) : Prop := ∀ s, (f s).quiet = (f s.quiet).quiet

@[simp] theorem State.quiet_banks (s : State) : s.quiet.banks = s.banks := rfl
@[simp] theorem State.quiet_harts (s : State) : s.quiet.harts = s.harts := rfl
@[simp] theorem State.quiet_phase (s : State) : s.quiet.phase = s.phase := rfl
@[simp] theorem State.quiet_schedule (s : State) : s.quiet.schedule = s.schedule := rfl
@[simp] theorem State.quiet_current (s : State) : s.quiet.current = s.current := rfl
@[simp] theorem State.quiet_ticksLeft (s : State) : s.quiet.ticksLeft = s.ticksLeft := rfl
@[simp] theorem State.quiet_ended (s : State) : s.quiet.ended = s.ended := rfl
@[simp] theorem State.quiet_nextRound (s : State) : s.quiet.nextRound = s.nextRound := rfl
@[simp] theorem State.quiet_faultScope (s : State) : s.quiet.params.faultScope = s.params.faultScope := rfl
@[simp] theorem State.quiet_unclassifiedPolicy (s : State) :
    s.quiet.params.unclassifiedPolicy = s.params.unclassifiedPolicy := rfl

/-- Such an operation does the same from two states that differ in outputs and verbose flag alone. -/
theorem QuietCongr.eq {f : State → Result} (hf : QuietCongr f) {s t : State} (h : s.quiet = t.quiet) :
    (f s).quiet = (f t).quiet := by
  rw [hf s, h, ← hf t]

theorem quietCongr_raiseHost (f : FaultKind) : QuietCongr (raiseHost f) := fun _ => rfl

theorem quietCongr_raise (k : Nat) (f : FaultKind) : QuietCongr (raise k f) := by
  intro s
  unfold raise
  rw [s.quiet_harts, s.quiet_faultScope]
  cases s.harts[k]? with
  | none => rfl
  | some h => cases s.params.faultScope <;> rfl

/-! ## Ticks -/

theorem quietCongr_exec (i : Instr) : QuietCongr (exec i) := by
  intro s
  cases i with
  | nop => rfl
  | unclassified w =>
    change (execUnclassified w s).quiet = (execUnclassified w s.quiet).quiet
    rw [execUnclassified_eq, execUnclassified_eq]
    unfold executeUnclassified
    rw [s.quiet_unclassifiedPolicy, s.quiet_harts, s.quiet_current]
    cases s.params.unclassifiedPolicy with
    | scaffoldNoop => rfl
    | refuse => cases s.harts[s.current]? <;> rfl

theorem fetchWord_quiet (s : State) (h : Hart) :
    fetchWord s.quiet.params s.banks h = fetchWord s.params s.banks h := rfl

/-- A fetch of the quiet state faults in the same way and leaves the hart the same; its lines may differ. -/
theorem fetch_quiet (s : State) (h : Hart) :
    (∃ f, fetch s.params s.banks h = .error f ∧ fetch s.quiet.params s.banks h = .error f) ∨
    ∃ h' o o', fetch s.params s.banks h = .ok (h', o) ∧ fetch s.quiet.params s.banks h = .ok (h', o') := by
  unfold fetch
  rw [fetchWord_quiet]
  cases h.halted with
  | true => exact .inr ⟨h.fetchedHalted, [], [], rfl, rfl⟩
  | false =>
    cases fetchWord s.params s.banks h with
    | error f => exact .inl ⟨f, rfl, rfl⟩
    | ok w => exact .inr ⟨h.fetched w, _, _, rfl, rfl⟩

theorem quietCongr_tick (k : Nat) : QuietCongr (tick k) := by
  intro s
  unfold tick
  rw [s.quiet_harts, s.quiet_banks]
  cases s.harts[k]? with
  | none => rfl
  | some h =>
    rcases fetch_quiet s h with ⟨f, e, e'⟩ | ⟨h', o, o', e, e'⟩
    · simp only [e, e']
      exact quietCongr_raise k f s
    · simp only [e, e']
      exact (quietCongr_exec (decode h'.ir)).eq rfl

/-! ## The host's steps -/

theorem quietCongr_updateHart (k : Nat) (g : Hart → Hart) : QuietCongr (updateHart k g) := by
  intro s
  unfold updateHart
  rw [s.quiet_harts]
  cases s.harts[k]? <;> rfl

theorem quietCongr_hostWriteStep (a : Nat) (v : Byte) : QuietCongr (hostWriteStep a v) := by
  intro s
  unfold hostWriteStep
  rw [s.quiet_banks]
  cases s.banks.hostWrite a v with
  | ok m => rfl
  | error f => exact quietCongr_raiseHost f s

theorem quietCongr_hostReadStep (a : Nat) : QuietCongr (hostReadStep a) := by
  intro s
  unfold hostReadStep
  rw [s.quiet_banks]
  cases s.banks.hostRead a with
  | ok v => rfl
  | error f => exact quietCongr_raiseHost f s

theorem topologyProblem_quiet (s : State) :
    Params.topologyProblem s.quiet.params = Params.topologyProblem s.params := rfl

theorem quietCongr_buildBanks (img : List Byte) : QuietCongr (buildBanks img) := by
  intro s
  unfold buildBanks
  rw [topologyProblem_quiet]
  cases Params.topologyProblem s.params with
  | none => rfl
  | some r => exact quietCongr_raiseHost (.configError r) s

theorem load_quiet (s : State) (img : List Byte) (m : Memory) : load s.quiet.params img m = load s.params img m := rfl

theorem quietCongr_loadImage (img : List Byte) : QuietCongr (loadImage img) := by
  intro s
  unfold loadImage
  rw [load_quiet, s.quiet_banks]
  rcases load s.params img s.banks with ⟨m, f | entry⟩
  · exact quietCongr_raiseHost f (s.setBanks m)
  · rfl

/-! ## Steps -/

theorem quietCongr_drive : QuietCongr drive := by
  intro s
  unfold drive
  rw [s.quiet_ticksLeft, s.quiet_nextRound]
  split
  · rfl
  · cases s.nextRound with
    | nil => rfl
    | cons k rest => exact (quietCongr_tick k).eq rfl

theorem quietCongr_proceed : QuietCongr proceed := by
  intro s
  unfold proceed
  rw [s.quiet_phase]
  cases s.phase with
  | build img => exact quietCongr_buildBanks img s
  | load img => exact quietCongr_loadImage img s
  | construct entry => rfl
  | running => exact quietCongr_drive s

theorem quietCongr_perform (e : Event) : QuietCongr (perform e) := by
  cases e with
  | auto => exact quietCongr_proceed
  | tick k => exact quietCongr_tick k
  | halt k => exact quietCongr_updateHart k Hart.halt
  | reset k r => exact quietCongr_updateHart k (Hart.reset r)
  | writeByte a v => exact quietCongr_hostWriteStep a v
  | readByte a => exact quietCongr_hostReadStep a

/-- Settles O46, operation by operation: the verbose flag is read by the trace line alone, and no operation reads the
outputs. -/
theorem traceChangesNoState : Obligations.TraceChangesNoState := by
  intro s
  unfold step advance
  rw [s.quiet_ended, s.quiet_schedule]
  split
  · rfl
  · cases s.schedule with
    | nil => exact quietCongr_proceed s
    | cons e es => exact (quietCongr_perform e).eq rfl

end Sys2Proof.Machine

/-! PROOFS of the statements about the memory (spec/20_memory.md): the address decoder, stores byte by byte,
permissions, and the host's accessors. -/

namespace Sys2Proof.Machine

/-! ## The address decoder (R35) -/

/-- Settles O4: the decoder searches the collection from its front. -/
theorem decoderSelectsFirstClaimingBank : Obligations.DecoderSelectsFirstClaimingBank := by
  intro m a
  constructor
  · intro b
    rw [Memory.select, List.find?_eq_some_iff_append]
    simp only [Bool.not_eq_true', ← Bool.not_eq_true, Bank.claims_iff]
    constructor
    · rintro ⟨hb, pre, post, hm, hpre⟩
      exact ⟨pre, post, hm, hb, hpre⟩
    · rintro ⟨pre, post, hm, hb, hpre⟩
      exact ⟨hb, pre, post, hm, hpre⟩
  · simp only [Memory.select_none_iff, ← Bool.not_eq_true, Bank.claims_iff]

/-! ## Stores byte by byte (R40) -/

/-- A byte reads as stored where it and the bytes below it lie in the bank. -/
theorem Bank.byteAt_writeBytes_of_fits {vs : List Byte} {b : Bank} {a i : Nat} (hb : b.wf = true)
    (hi : i < vs.length) (h : b.Fits a (i + 1)) : (b.writeBytes a vs).1.byteAt (a + i) = vs[i] := by
  induction vs generalizing b a i with
  | nil => cases hi
  | cons v vs ih =>
    obtain ⟨hc, hrest⟩ := (b.fits_succ a i).1 h
    have hb' : (b.setByte a v).wf = true := wf_setByte v hb hc
    rw [writeBytes_cons_of_claims v vs hc]
    cases i with
    | zero => exact (byteAt_writeBytes_below hb' (Nat.lt_succ_self a)).trans (byteAt_setByte_same hb a v)
    | succ i =>
      have hnext : a + (i + 1) = a + 1 + i := by omega
      rw [hnext]
      exact ih hb' (Nat.lt_of_succ_lt_succ hi) ((b.fits_setByte (a + 1) a _ v).2 hrest)

/-- Every other byte stays: those outside the access, and those from the first one out of range up. -/
theorem Bank.byteAt_writeBytes_other {vs : List Byte} {b : Bank} {a x : Nat} (hb : b.wf = true)
    (h : ∀ i, i < vs.length → x = a + i → ¬b.Fits a (i + 1)) : (b.writeBytes a vs).1.byteAt x = b.byteAt x := by
  induction vs generalizing b a with
  | nil => rfl
  | cons v vs ih =>
    cases hc : b.claims a with
    | false => rw [writeBytes_cons_of_unclaimed v vs hc]
    | true =>
      have hxa : x ≠ a := fun e => h 0 (Nat.succ_pos _) e ((b.fits_succ a 0).2 ⟨hc, fun i hi => absurd hi (by omega)⟩)
      have hrest : ∀ i, i < vs.length → x = a + 1 + i → ¬(b.setByte a v).Fits (a + 1) (i + 1) := fun i hi hx hfit =>
        h (i + 1) (Nat.succ_lt_succ hi) (by omega) ((b.fits_succ a (i + 1)).2 ⟨hc, hfit⟩)
      rw [writeBytes_cons_of_claims v vs hc, ih (wf_setByte v hb hc) hrest, byteAt_setByte_other hb v hxa]

/-- Settles O6, by the rules of `writeBytes` for the bytes below the first one out of range and for the others. -/
theorem bankWriteStoresBytesBelowTheEnd : Obligations.BankWriteStoresBytesBelowTheEnd := by
  intro b a n v hb
  have hlen := Word.toBytes_length n.bytes v
  refine ⟨b.write_toBankEntry a n v, Bank.write_of_fits v, fun i hi => Bank.write_of_overrun v hi, ?_, ?_⟩
  · intro i hi hfit
    have hi' : i < (Word.toBytes n.bytes v).length := hlen.symm ▸ hi
    exact (Bank.byteAt_writeBytes_of_fits hb hi' fun j hj => hfit j (Nat.le_of_lt_succ hj)).trans
      (Word.getElem_toBytes n.bytes v i hi')
  · intro x hx
    refine Bank.byteAt_writeBytes_other hb fun i hi hxi hfit => ?_
    obtain ⟨j, hj, hout⟩ := hx i (hlen ▸ hi) hxi
    rw [hfit j (Nat.lt_succ_of_le hj)] at hout
    cases hout

/-! ## A hart's accesses (R43, R46, R47) -/

/-- Settles O8: both accesses use the bank the address selects, and there the bytes read back as stored. -/
theorem memWriteThenMemRead : Obligations.MemWriteThenMemRead := by
  intro p m a n v b hm hs hfit hperm
  have hb : b.wf = true := (Memory.wf_iff m).1 hm b (Memory.select_mem hs).1
  have hentry := b.write_toBankEntry a.toNat n v
  have hstore : m.route p a .store = .ok b := Memory.route_of_allowed hs fun he => (hperm he).1
  have hload : (m.replace a.toNat (b.write a.toNat n v).1).route p a .load = .ok (b.write a.toNat n v).1 :=
    Memory.route_of_allowed (Memory.select_replace_self hs hentry) fun he => by
      rw [AccessKind.allowed, hentry]; exact (hperm he).2
  refine ⟨_, _, (Memory.write_of_route n v hstore).trans (Prod.ext rfl (Bank.write_of_fits v hfit)),
    (Memory.read_of_route n hload).trans (Bank.read_write v hb hfit), Word.ofBytes_toBytes_toNat n.bytes n.bytes_le v⟩

theorem AccessKind.allowed_all (k : AccessKind) : k.allowed ⟨true, true, true⟩ = true := by cases k <;> rfl

/-- Over banks with all three flags the permission check passes whatever its setting. -/
theorem Memory.route_of_fullPermissions {m : Memory} (hfull : ∀ b ∈ m, b.perm = ⟨true, true, true⟩) (p : Params)
    (e : Bool) (a : Word) (k : AccessKind) : m.route { p with enforcePermissions := e } a k = m.route p a k := by
  cases hs : m.select a.toNat with
  | none => simp only [route, hs]
  | some b =>
    have hb : k.allowed b.perm = true := hfull b (select_mem hs).1 ▸ k.allowed_all
    rw [route_of_allowed hs fun _ => hb, route_of_allowed hs fun _ => hb]

/-- Settles O12: the setting matters to the routing of an access alone. -/
theorem fullPermissionsMakeEnforcementIrrelevant : Obligations.FullPermissionsMakeEnforcementIrrelevant := by
  intro p m e hfull a n v k
  simp only [Memory.read, Memory.write, Memory.route_of_fullPermissions hfull, and_self]

theorem Memory.route_of_unclaimed {m : Memory} {a : Word} (h : m.select a.toNat = none) (p : Params) (k : AccessKind) :
    m.route p a k = .error (k.absent a) := by
  simp only [route, h]

theorem Memory.route_of_denied {p : Params} {m : Memory} {a : Word} {k : AccessKind} {b : Bank}
    (hs : m.select a.toNat = some b) (he : p.enforcePermissions = true) (hk : k.allowed b.perm = false) :
    m.route p a k = .error (.permissionDenied a k) := by
  simp only [route, hs, he, hk, Bool.not_false, Bool.and_self, if_pos]

theorem Memory.read_of_route_error {p : Params} {m : Memory} {a : Word} {k : AccessKind} {f : FaultKind} (n : Width)
    (h : m.route p a k = .error f) : m.read p a n k = .error f := by
  rw [read, h]

theorem Memory.write_of_route_error {p : Params} {m : Memory} {a : Word} {f : FaultKind} (n : Width) (v : Word)
    (h : m.route p a .store = .error f) : m.write p a n v = (m, some f) := by
  rw [write, h]

/-! ## The host's accessors (R48) -/

theorem Memory.hostRead_of_select {m : Memory} {a : Nat} {b : Bank} (h : m.select a = some b) :
    m.hostRead a = .ok (b.byteAt a) := by
  rw [hostRead, h]

theorem Memory.hostRead_of_unclaimed {m : Memory} {a : Nat} (h : m.select a = none) :
    m.hostRead a = .error (.outOfBounds a) := by
  rw [hostRead, h]

theorem Memory.hostWrite_of_select {m : Memory} {a : Nat} {b : Bank} (v : Byte) (h : m.select a = some b) :
    m.hostWrite a v = .ok (m.replace a (b.setByte a v)) := by
  rw [hostWrite, h]

theorem Memory.hostWrite_of_unclaimed {m : Memory} {a : Nat} (v : Byte) (h : m.select a = none) :
    m.hostWrite a v = .error (.outOfBounds a) := by
  rw [hostWrite, h]

theorem Memory.hostRead_congr {m m' : Memory} {x : Nat} (h : m'.select x = m.select x) :
    m'.hostRead x = m.hostRead x := by
  rw [hostRead, hostRead, h]

/-- A byte that is the same in the bank put in the selected one's place reads as before. -/
theorem Memory.hostRead_replace {m : Memory} {a x : Nat} {b c : Bank} (hs : m.select a = some b)
    (hc : c.toBankEntry = b.toBankEntry) (hx : c.byteAt x = b.byteAt x) :
    (m.replace a c).hostRead x = m.hostRead x := by
  rcases select_replace hs hc x with ⟨hnew, hold⟩ | hsame
  · rw [hostRead_of_select hnew, hostRead_of_select hold, hx]
  · exact hostRead_congr hsame

theorem Memory.hostRead_hostWrite_same {m m' : Memory} {a : Nat} {v : Byte} (hm : Memory.wf m = true)
    (h : m.hostWrite a v = .ok m') : m'.hostRead a = .ok v := by
  obtain ⟨b, hs, rfl⟩ := hostWrite_ok h
  have hb : b.wf = true := (wf_iff m).1 hm b (select_mem hs).1
  rw [hostRead_of_select (select_replace_self hs (b.setByte_toBankEntry a v)), Bank.byteAt_setByte_same hb]

theorem Memory.hostRead_hostWrite_other {m m' : Memory} {a x : Nat} {v : Byte} (hm : Memory.wf m = true)
    (h : m.hostWrite a v = .ok m') (hx : x ≠ a) : m'.hostRead x = m.hostRead x := by
  obtain ⟨b, hs, rfl⟩ := hostWrite_ok h
  have hb : b.wf = true := (wf_iff m).1 hm b (select_mem hs).1
  exact hostRead_replace hs (b.setByte_toBankEntry a v) (Bank.byteAt_setByte_other hb v hx)

/-- Settles O10: without a bank the routing fails, with the fault of its access kind. -/
theorem unclaimedAddressFailsEveryAccessor : Obligations.UnclaimedAddressFailsEveryAccessor := by
  intro p m a n v u h
  have hs := (Memory.select_none_iff m a.toNat).2 h
  have hroute := Memory.route_of_unclaimed hs p
  exact ⟨Memory.read_of_route_error n (hroute .load), Memory.read_of_route_error n (hroute .fetch),
    Memory.write_of_route_error n v (hroute .store), Memory.hostRead_of_unclaimed hs,
    Memory.hostWrite_of_unclaimed u hs⟩

/-- Settles O11: the routing checks the flag of the access kind before any byte is accessed. -/
theorem permissionDeniedBeforeAnyByte : Obligations.PermissionDeniedBeforeAnyByte := fun _ _ _ n v _ hs he =>
  ⟨fun hk => Memory.read_of_route_error n (Memory.route_of_denied hs he hk),
    fun hk => Memory.read_of_route_error n (Memory.route_of_denied hs he hk),
    fun hk => Memory.write_of_route_error n v (Memory.route_of_denied hs he hk)⟩

/-! ## The memory stages of an extension point (R75) -/

theorem raise_terminates {k : Nat} {s : State} {h : Hart} (f : FaultKind) (hk : s.harts[k]? = some h)
    (hs : s.params.faultScope = .terminateSimulation) :
    raise k f s = .fault (.raised ⟨f, .hart h.id⟩ (s.record ⟨f, .hart h.id⟩)) := by
  simp only [raise, hk, hs]

theorem raise_halts {k : Nat} {s : State} {h : Hart} (f : FaultKind) (hk : s.harts[k]? = some h)
    (hs : s.params.faultScope = .haltHart) :
    raise k f s = .next ((s.record ⟨f, .hart h.id⟩).setHart k h.halt) := by
  simp only [raise, hk, hs]

theorem loadStage_of_error {k : Nat} {a : Word} {n : Width} {s : State} {f : FaultKind} (use : Word → State → Result)
    (h : s.banks.read s.params a n .load = .error f) : loadStage k a n use s = raise k f s := by
  simp only [loadStage, h]

theorem storeStage_of_error {k : Nat} {a : Word} {n : Width} {v : Word} {s : State} {m : Memory} {f : FaultKind}
    (h : s.banks.write s.params a n v = (m, some f)) : storeStage k a n v s = raise k f (s.setBanks m) := by
  simp only [storeStage, h]

/-- Settles O14: each stage hands on what its accessor answers, and raises its fault. -/
theorem memoryStagesReuseTheAccessors : Obligations.MemoryStagesReuseTheAccessors := by
  intro s k h a n v use hk
  refine ⟨fun w hr => ?_, fun m hw => ?_, fun f hr => ?_, fun m f hw => ?_⟩
  · simp only [loadStage, hr]
  · simp only [storeStage, hw]; rfl
  · rw [loadStage_of_error use hr]
    exact ⟨raise_terminates f hk, raise_halts f hk⟩
  · rw [storeStage_of_error hw]
    exact ⟨raise_terminates (s := s.setBanks m) f hk, raise_halts (s := s.setBanks m) f hk⟩

/-! ## A byte of an instruction written by the host (R58) -/

/-- The replaced bank is selected at every address that selected it before. -/
theorem Memory.select_replace_of_select {m : Memory} {a x : Nat} {b c : Bank} (ha : m.select a = some b)
    (hx : m.select x = some b) (hc : c.toBankEntry = b.toBankEntry) : (m.replace a c).select x = some c := by
  have hcl := Bank.claims_congr hc
  have hba := (select_mem ha).2
  have hbx := (select_mem hx).2
  induction m with
  | nil => cases ha
  | cons d m ih =>
    by_cases hd : d = b
    · subst hd
      simp [replace, select, hba, hbx, hcl]
    · have hda : d.claims a = false := Bool.eq_false_iff.2 fun h => hd (by simpa [select, h] using ha)
      have hdx : d.claims x = false := Bool.eq_false_iff.2 fun h => hd (by simpa [select, h] using hx)
      simp only [select, List.find?_cons, hda, hdx] at ha hx
      simpa [replace, select, hda, hdx] using ih ha hx

/-- Four bytes make a word. -/
theorem exists_word_of_bytes (f : Nat → Byte) : ∃ w : Word, ∀ i, i < 4 → w.extractLsb' (8 * i) 8 = f i :=
  ⟨Word.ofBytes ((List.range 4).map f), fun i hi => by
    rw [Word.extractLsb'_ofBytes _ i hi]
    simp [hi]⟩

/-- Settles O47: the write replaces the bank that the fetch reads by one with that byte, and its other bytes stay. -/
theorem hostPatchIsFetched : Obligations.HostPatchIsFetched := by
  intro p m m' h w i v hm hf hi hsame hw
  obtain ⟨hrun, haligned, b, hs, hperm, hbytes⟩ := hf
  obtain ⟨c, hc, rfl⟩ := Memory.hostWrite_ok hw
  obtain rfl : c = b := Option.some.inj (hc.symm.trans (hsame.trans hs))
  have hwf : c.wf = true := (Memory.wf_iff m).1 hm c (Memory.select_mem hs).1
  obtain ⟨w', hw'⟩ := exists_word_of_bytes fun j => (c.setByte (h.pc.toNat + i) v).byteAt (h.pc.toNat + j)
  have hnew := Memory.select_replace_of_select hc hs (c.setByte_toBankEntry (h.pc.toNat + i) v)
  refine ⟨w', ⟨hrun, haligned, _, hnew, hperm, fun j hj => ⟨(hbytes j hj).1, (hw' j hj).symm⟩⟩, ?_, ?_⟩
  · exact (hw' i hi).trans (Bank.byteAt_setByte_same hwf _ v)
  · intro j hj hji
    rw [hw' j hj, Bank.byteAt_setByte_other hwf v (by omega), (hbytes j hj).2]

end Sys2Proof.Machine

/-! PROOFS of the statements about instructions, the fetch and the tick (spec/40_pipeline.md, spec/60_exceptions.md). -/

namespace Sys2Proof.Machine

/-! ## The instructions after their fetch (R77, R78) -/

@[simp] theorem exec_nop (s : State) : exec .nop s = .next s := rfl

theorem exec_unclassified_of_scaffoldNoop {s : State} (hp : s.params.unclassifiedPolicy = .scaffoldNoop) (w : Word) :
    exec (.unclassified w) s = .next s := by
  simp only [exec, execUnclassified_eq, executeUnclassified, hp, skip]

theorem exec_unclassified_of_refuse {s : State} {h : Hart} (hp : s.params.unclassifiedPolicy = .refuse)
    (hk : s.harts[s.current]? = some h) (w : Word) :
    exec (.unclassified w) s = .refused (.unclassifiedWord w (h.pc - 4#32) s.markRefused) := by
  simp only [exec, execUnclassified_eq, executeUnclassified, hp, hk, refuse]

/-- Settles O19: each of its stages does nothing. -/
theorem nopCompletes : Obligations.NopCompletes := exec_nop

/-- Settles O20: under `scaffold_noop` each of its stages does nothing. -/
theorem unclassifiedCompletesUnderScaffoldNoop : Obligations.UnclassifiedCompletesUnderScaffoldNoop :=
  fun w _ hp => exec_unclassified_of_scaffoldNoop hp w

/-- Settles O21: under `refuse` its execute stage ends the tick. -/
theorem unclassifiedIsRefusedUnderRefuse : Obligations.UnclassifiedIsRefusedUnderRefuse :=
  fun w _ _ hp hk => exec_unclassified_of_refuse hp hk w

/-- Settles O22: an instruction that completes answers the state it is given. -/
theorem instructionsChangeNothingAfterTheFetch : Obligations.InstructionsChangeNothingAfterTheFetch := by
  intro i s t h
  obtain rfl := exec_next h
  exact ⟨rfl, fun _ => rfl, rfl, rfl⟩

/-! ## The fetch reads a word (R70, R71) -/

theorem fetchWord_of_aligned {p : Params} {h : Hart} (m : Memory) (ha : p.fetchAlignCheck = true → Aligned h.pc) :
    fetchWord p m h = m.read p h.pc .word .fetch := by
  have hpass : ¬(p.fetchAlignCheck && decide (h.pc.toNat % 4 ≠ 0)) = true := by simpa using ha
  rw [fetchWord, if_neg hpass]

theorem fetchWord_of_misaligned {p : Params} {h : Hart} (m : Memory) (hp : p.fetchAlignCheck = true)
    (ha : ¬Aligned h.pc) : fetchWord p m h = .error (.misalignedFetch h.pc) := by
  have hfail : (p.fetchAlignCheck && decide (h.pc.toNat % 4 ≠ 0)) = true := by simpa [hp] using ha
  rw [fetchWord, if_pos hfail]

theorem Bank.read_word {b : Bank} {a : Nat} {w : Word}
    (h : ∀ i, i < 4 → b.claims (a + i) = true ∧ b.byteAt (a + i) = w.extractLsb' (8 * i) 8) :
    b.read a .word = .ok w := by
  rw [read_of_readBytes (n := .word) (readBytes_of_fits fun i hi => (h i hi).1)]
  refine congrArg Except.ok (Word.ext_bytes fun i hi => ?_)
  have hi' : i < Width.word.bytes := hi
  rw [Word.extractLsb'_ofBytes _ i hi, ← (h i hi).2]
  simp [hi']

theorem fetchWord_of_fetches {p : Params} {m : Memory} {h : Hart} {w : Word} (hf : Fetches p m h w) :
    fetchWord p m h = .ok w := by
  obtain ⟨-, haligned, b, hs, hperm, hbytes⟩ := hf
  rw [fetchWord_of_aligned m haligned, Memory.read_of_route .word (Memory.route_of_allowed hs hperm)]
  exact Bank.read_word hbytes

/-- Each fault of a fetch is the first of its checks that fails (R108). -/
theorem fetchWord_of_fetchFaults {p : Params} {m : Memory} {h : Hart} {f : FaultKind} (hf : FetchFaults p m h f) :
    fetchWord p m h = .error f := by
  cases hf with
  | misaligned check pc => exact fetchWord_of_misaligned m check pc
  | unclaimed aligned absent =>
    have hs := (Memory.select_none_iff m h.pc.toNat).2 absent
    rw [fetchWord_of_aligned m aligned]
    exact Memory.read_of_route_error .word (Memory.route_of_unclaimed hs p .fetch)
  | denied b aligned bank enforced flag =>
    rw [fetchWord_of_aligned m aligned]
    exact Memory.read_of_route_error .word (Memory.route_of_denied bank enforced flag)
  | overrun b i aligned bank permitted inside width outside =>
    rw [fetchWord_of_aligned m aligned, Memory.read_of_route .word (Memory.route_of_allowed bank permitted)]
    exact Bank.read_of_overrun width inside outside

/-- The bytes of an access fit, or one is the first that does not. -/
theorem Bank.fits_or_overrun (b : Bank) (a n : Nat) :
    b.Fits a n ∨ ∃ i, i < n ∧ b.Fits a i ∧ b.claims (a + i) = false := by
  induction n with
  | zero => exact .inl fun i hi => absurd hi (Nat.not_lt_zero i)
  | succ n ih =>
    rcases ih with hfit | ⟨i, hi, hfit, hout⟩
    · cases hc : b.claims (a + n) with
      | true => exact .inl fun i hi => (Nat.lt_succ_iff_lt_or_eq.1 hi).elim (hfit i) fun e => e ▸ hc
      | false => exact .inr ⟨n, Nat.lt_succ_self n, hfit, hc⟩
    · exact .inr ⟨i, Nat.lt_succ_of_lt hi, hfit, hout⟩

theorem fetches_of_fits {p : Params} {m : Memory} {h : Hart} {b : Bank} (hrun : h.halted = false)
    (ha : p.fetchAlignCheck = true → Aligned h.pc) (hs : m.select h.pc.toNat = some b)
    (hp : p.enforcePermissions = true → b.perm.execute = true) (hfit : b.Fits h.pc.toNat 4) :
    ∃ w, Fetches p m h w := by
  obtain ⟨w, hw⟩ := exists_word_of_bytes fun i => b.byteAt (h.pc.toNat + i)
  exact ⟨w, hrun, ha, b, hs, hp, fun i hi => ⟨hfit i hi, (hw i hi).symm⟩⟩

/-- The checks of a running fetch, in their order: it reads a word or one of them fails. -/
theorem fetches_or_fetchFaults (p : Params) (m : Memory) {h : Hart} (hrun : h.halted = false) :
    (∃ w, Fetches p m h w) ∨ ∃ f, FetchFaults p m h f := by
  by_cases ha : p.fetchAlignCheck = true → Aligned h.pc
  · cases hs : m.select h.pc.toNat with
    | none => exact .inr ⟨_, .unclaimed ha ((Memory.select_none_iff m _).1 hs)⟩
    | some b =>
      by_cases hp : p.enforcePermissions = true → b.perm.execute = true
      · rcases b.fits_or_overrun h.pc.toNat 4 with hfit | ⟨i, hi, hfit, hout⟩
        · exact .inl (fetches_of_fits hrun ha hs hp hfit)
        · exact .inr ⟨_, .overrun b i ha hs hp hfit hi hout⟩
      · obtain ⟨he, hx⟩ := Classical.not_imp.1 hp
        exact .inr ⟨_, .denied b ha hs he (Bool.eq_false_iff.2 hx)⟩
  · obtain ⟨hc, hpc⟩ := Classical.not_imp.1 ha
    exact .inr ⟨_, .misaligned hc hpc⟩

theorem fetchWord_error_iff {p : Params} {m : Memory} {h : Hart} (hrun : h.halted = false) (f : FaultKind) :
    fetchWord p m h = .error f ↔ FetchFaults p m h f := by
  refine ⟨fun e => ?_, fetchWord_of_fetchFaults⟩
  rcases fetches_or_fetchFaults p m hrun with ⟨w, hw⟩ | ⟨f', hf⟩
  · cases e.symm.trans (fetchWord_of_fetches hw)
  · cases e.symm.trans (fetchWord_of_fetchFaults hf)
    exact hf

theorem fetch_of_fetchWord_ok {p : Params} {m : Memory} {h : Hart} {w : Word} (hrun : h.halted = false)
    (hw : fetchWord p m h = .ok w) : fetch p m h = .ok (afterFetchOf h w, shownByFetch p h w) := by
  rw [fetch, hrun, hw]; rfl

theorem fetch_of_fetchWord_error {p : Params} {m : Memory} {h : Hart} {f : FaultKind} (hrun : h.halted = false)
    (hf : fetchWord p m h = .error f) : fetch p m h = .error f := by
  rw [fetch, hrun, hf]; rfl

/-- A faulting fetch is that of a running hart, and its fault one of the specified. -/
theorem fetchFaults_of_fetch_error {p : Params} {m : Memory} {h : Hart} {f : FaultKind}
    (hf : fetch p m h = .error f) : h.halted = false ∧ FetchFaults p m h f := by
  rcases fetch_cases p m h with ⟨-, e⟩ | ⟨-, w, -, e⟩ | ⟨hrun, f', hw, e⟩
  · cases e.symm.trans hf
  · cases e.symm.trans hf
  · cases e.symm.trans hf
    exact ⟨hrun, (fetchWord_error_iff hrun f).1 hw⟩

/-- Settles O27: `fetch` hands on what `fetchWord` answers, and that is the word or the fault the checks give. -/
theorem fetchReadsOrFaultsAsSpecified : Obligations.FetchReadsOrFaultsAsSpecified := by
  intro p m h hrun
  refine ⟨fun w => ⟨fun e => ?_, fun hf => ?_⟩, fun f => ⟨fun e => ?_, fun hf => ?_⟩, fetches_or_fetchFaults p m hrun⟩
  · rcases fetches_or_fetchFaults p m hrun with ⟨w', hw⟩ | ⟨f, hf⟩
    · have e' := fetch_of_fetchWord_ok hrun (fetchWord_of_fetches hw)
      have hir : w' = w := congrArg (fun r : Hart × List Output => r.1.ir) (Except.ok.inj (e'.symm.trans e))
      exact hir ▸ hw
    · cases e.symm.trans (fetch_of_fetchWord_error hrun (fetchWord_of_fetchFaults hf))
  · exact fetch_of_fetchWord_ok hrun (fetchWord_of_fetches hf)
  · exact (fetchFaults_of_fetch_error e).2
  · exact fetch_of_fetchWord_error hrun (fetchWord_of_fetchFaults hf)

/-! ## Ticks -/

theorem tick_of_fetch_ok {k : Nat} {s : State} {h h' : Hart} {o : List Output} (hk : s.harts[k]? = some h)
    (hf : fetch s.params s.banks h = .ok (h', o)) : tick k s = exec (decode h'.ir) (s.afterFetch k h' o) := by
  simp only [tick, hk, hf]

theorem tick_of_fetch_error {k : Nat} {s : State} {h : Hart} {f : FaultKind} (hk : s.harts[k]? = some h)
    (hf : fetch s.params s.banks h = .error f) : tick k s = raise k f s := by
  simp only [tick, hk, hf]

theorem step_of_fetches {s s0 : State} {k : Nat} {h : Hart} {w : Word} (ht : NextTick s s0 k h)
    (hf : Fetches s.params s.banks h w) : step s = exec (decode w) (fetchedState s0 k h w) := by
  obtain ⟨hstep, hk, hparams, hbanks, -⟩ := step_of_nextTick ht
  rw [← hparams, ← hbanks] at hf
  exact hstep.trans (tick_of_fetch_ok hk (fetch_of_fetchWord_ok hf.1 (fetchWord_of_fetches hf)))

theorem step_of_fetchFaults {s s0 : State} {k : Nat} {h : Hart} {f : FaultKind} (ht : NextTick s s0 k h)
    (hrun : h.halted = false) (hf : FetchFaults s.params s.banks h f) : step s = raise k f s0 := by
  obtain ⟨hstep, hk, hparams, hbanks, -⟩ := step_of_nextTick ht
  rw [← hparams, ← hbanks] at hf
  exact hstep.trans (tick_of_fetch_error hk (fetch_of_fetchWord_error hrun (fetchWord_of_fetchFaults hf)))

/-- Settles O23: the tick executes what it has fetched. -/
theorem stepRunsTheDecodedInstruction : Obligations.StepRunsTheDecodedInstruction :=
  fun _ _ _ _ _ => step_of_fetches

/-- Settles O24: the word fetched decodes to the no-op, which does nothing more. -/
theorem nopTick : Obligations.NopTick := by
  intro s s0 k h ht hf
  exact (step_of_fetches ht hf).trans (congrArg (exec · _) decode_nopWord)

theorem fetchedState_harts_self {s : State} {k : Nat} {h : Hart} (hk : s.harts[k]? = some h) (w : Word) :
    (fetchedState s k h w).harts[(fetchedState s k h w).current]? = some (afterFetchOf h w) :=
  List.getElem?_set_self (List.getElem?_eq_some_iff.1 hk).1

/-- Settles O25: any other word decodes to itself, unclassified, and the policy decides. -/
theorem unclassifiedTick : Obligations.UnclassifiedTick := by
  intro s s0 k h w ht hf hw
  obtain ⟨-, hk, hparams, -, -⟩ := step_of_nextTick ht
  have hpc : (afterFetchOf h w).pc - 4#32 = h.pc := BitVec.add_sub_cancel h.pc 4#32
  rw [step_of_fetches ht hf, decode_of_ne hw, ← hparams]
  refine ⟨fun hp => exec_unclassified_of_scaffoldNoop (s := fetchedState s0 k h w) hp w, fun hp => ?_⟩
  rw [exec_unclassified_of_refuse (s := fetchedState s0 k h w) hp (fetchedState_harts_self hk w), hpc]
  rfl

/-- Settles O26: a halted hart fetches the no-op, which does nothing more. -/
theorem haltedTick : Obligations.HaltedTick := by
  intro s s0 k h ht hh
  obtain ⟨hstep, hk, -, -, -⟩ := step_of_nextTick ht
  have hfetch : fetch s0.params s0.banks h = .ok (h.fetchedHalted, []) := if_pos hh
  rw [hstep, tick_of_fetch_ok hk hfetch, Hart.fetchedHalted_ir, decode_nopWord, exec_nop, State.afterFetch,
    State.emit, List.append_nil]
  rfl

/-- Settles O28: the fault of the fetch is raised, and that ends the simulation. -/
theorem fetchFaultEndsTheSimulation : Obligations.FetchFaultEndsTheSimulation := by
  intro s s0 k h f ht hrun hf hscope
  obtain ⟨-, hk, hparams, -, -⟩ := step_of_nextTick ht
  exact (step_of_fetchFaults ht hrun hf).trans (raise_terminates f hk (hparams ▸ hscope))

/-- Settles O29: the fault of the fetch is raised, and that halts the hart. -/
theorem fetchFaultHaltsTheHart : Obligations.FetchFaultHaltsTheHart := by
  intro s s0 k h f ht hrun hf hscope
  obtain ⟨-, hk, hparams, -, -⟩ := step_of_nextTick ht
  exact (step_of_fetchFaults ht hrun hf).trans (raise_halts f hk (hparams ▸ hscope))

/-- A tick that completes keeps the banks and replaces its own hart alone. -/
theorem tick_frame {k : Nat} {s t : State} (h : tick k s = .next t) :
    t.banks = s.banks ∧ ∃ h', t.harts = s.harts.set k h' := by
  rcases tick_cases k s with ⟨-, e⟩ | ⟨h1, f, hk, -, e⟩ | ⟨h1, h', o, -, -, e⟩ <;> rw [e] at h
  · cases h
  · rcases raise_cases k f s with ⟨-, e⟩ | ⟨h2, -, -, e⟩ | ⟨h2, -, -, e⟩ <;> rw [e] at h <;> cases h
    exact ⟨rfl, h2.halt, rfl⟩
  · obtain rfl := exec_next h
    exact ⟨rfl, h', rfl⟩

/-- Settles O45, by the frame of the tick. -/
theorem tickLeavesOtherHartsAndMemory : Obligations.TickLeavesOtherHartsAndMemory := by
  intro s s0 t k h ht hnext
  obtain ⟨hstep, -, -, hbanks, hharts⟩ := step_of_nextTick ht
  obtain ⟨hb, h', hh⟩ := tick_frame (hstep.symm.trans hnext)
  exact ⟨hb.trans hbanks, fun j hj => by rw [hh, List.getElem?_set_ne hj.symm, hharts]⟩

/-! ## What halts a hart (R79) -/

/-- Settles O36: of the moves of a hart only the halt command and a fault of its fetch set the flag. -/
theorem haltedIsEnteredOnlyByCommandOrFault : Obligations.HaltedIsEnteredOnlyByCommandOrFault := by
  intro s t k h h' hrun hk hh hstep hk' hh'
  have hne : h' ≠ h := fun e => Bool.false_ne_true (hh.symm.trans (e ▸ hh'))
  cases (ordinaryStep_of_running hrun hstep).harts.hartMove_of_ne hk hk' hne with
  | fetched w _ _ => exact absurd (hh.symm.trans hh') Bool.false_ne_true
  | synthesized halted => exact absurd (hh.symm.trans halted) Bool.false_ne_true
  | faulted f fetch scope record => exact .inr ⟨scope, f, (fetchFaults_of_fetch_error fetch).2, record⟩
  | commanded es event => exact .inl ⟨es, event⟩
  | wasReset a es _ => exact absurd hh' Bool.false_ne_true

/-- Settles O37: the loop looks at the flag before each tick. -/
theorem runTicksUntilHalted : Obligations.RunTicksUntilHalted := by
  intro s k n h hk
  have hat : s.haltedAt k = h.halted := by rw [State.haltedAt, hk]
  refine ⟨fun hh => ?_, fun hh => ?_⟩
  · cases n with
    | zero => rfl
    | succ n => rw [runHart, hat, if_pos hh]
  · rw [runHart, hat, hh, if_neg Bool.false_ne_true]

end Sys2Proof.Machine

/-! PROOFS of the statements about the host's steps, the end of a simulation and the bring-up (spec/60_exceptions.md,
spec/70_reset_and_hazards.md). -/

namespace Sys2Proof.Machine

/-! ## Pending events -/

/-- A step with an event pending performs it. -/
theorem step_of_event {s : State} {e : Event} {es : List Event} (he : s.ended = false) (hs : s.schedule = e :: es) :
    step s = perform e (s.setSchedule es) := by
  simp only [step, advance, he, hs, if_neg Bool.false_ne_true]

theorem updateHart_of_hart {k : Nat} {s : State} {h : Hart} (g : Hart → Hart) (hk : s.harts[k]? = some h) :
    updateHart k g s = .next (s.setHart k (g h)) := by
  simp only [updateHart, hk]

theorem hostWriteStep_of_ok {a : Nat} {v : Byte} {s : State} {m : Memory} (h : s.banks.hostWrite a v = .ok m) :
    hostWriteStep a v s = .next (s.setBanks m) := by
  simp only [hostWriteStep, h]

theorem hostWriteStep_of_error {a : Nat} {v : Byte} {s : State} {f : FaultKind}
    (h : s.banks.hostWrite a v = .error f) : hostWriteStep a v s = raiseHost f s := by
  simp only [hostWriteStep, h]

theorem hostReadStep_of_ok {a : Nat} {v : Byte} {s : State} (h : s.banks.hostRead a = .ok v) :
    hostReadStep a s = .next (s.emit [.byte a v]) := by
  simp only [hostReadStep, h]

theorem hostReadStep_of_error {a : Nat} {s : State} {f : FaultKind} (h : s.banks.hostRead a = .error f) :
    hostReadStep a s = raiseHost f s := by
  simp only [hostReadStep, h]

/-- Settles O33: the command replaces the hart by its halted self. -/
theorem haltCommandSetsTheFlagAlone : Obligations.HaltCommandSetsTheFlagAlone := by
  intro s es k h he hs hk
  exact (step_of_event he hs).trans (updateHart_of_hart (s := s.setSchedule es) Hart.halt hk)

/-- Settles O34: the command replaces the hart by its reset self. -/
theorem resetCommandRestoresTheHart : Obligations.ResetCommandRestoresTheHart := by
  intro s es k a h he hs hk
  refine ⟨Hart.reset a h, (step_of_event he hs).trans (updateHart_of_hart (s := s.setSchedule es) (Hart.reset a) hk),
    rfl, rfl, rfl, RegisterFile.get_zeroFile, ?_, ?_⟩
  · rintro r rfl
    exact ⟨rfl, rfl⟩
  · rintro rfl
    exact ⟨rfl, rfl⟩

/-- Settles O13: the host's write replaces the bank that claims the byte by one with that byte, whatever its flags. -/
theorem hostByteWriteChangesOneByte : Obligations.HostByteWriteChangesOneByte := by
  constructor
  · intro m a v b hm hs
    have hw := Memory.hostWrite_of_select v hs
    exact ⟨_, hw, Memory.hostRead_hostWrite_same hm hw, fun x hx => Memory.hostRead_hostWrite_other hm hw hx⟩
  · intro s es a b he hs
    refine ⟨fun v hev => ⟨_, Memory.hostWrite_of_select v hs, ?_⟩, fun hev => ?_⟩
    · exact (step_of_event he hev).trans
        (hostWriteStep_of_ok (s := s.setSchedule es) (Memory.hostWrite_of_select v hs))
    · exact (step_of_event he hev).trans (hostReadStep_of_ok (s := s.setSchedule es) (Memory.hostRead_of_select hs))

/-! ## Bring-up steps -/

section
variable {s : State} {es : List Event} {img : List Byte}

theorem step_of_build (next : ProceedsNext s es) (phase : s.phase = .build img) :
    step s = buildBanks img (s.setSchedule es) := by
  simp only [step_of_proceedsNext next, proceed, State.setSchedule_phase, phase]

theorem step_of_load (next : ProceedsNext s es) (phase : s.phase = .load img) :
    step s = loadImage img (s.setSchedule es) := by
  simp only [step_of_proceedsNext next, proceed, State.setSchedule_phase, phase]

theorem step_of_construct {entry : Word} (next : ProceedsNext s es) (phase : s.phase = .construct entry) :
    step s = constructHarts entry (s.setSchedule es) := by
  simp only [step_of_proceedsNext next, proceed, State.setSchedule_phase, phase]

theorem step_of_running (next : ProceedsNext s es) (phase : s.phase = .running) :
    step s = drive (s.setSchedule es) := by
  simp only [step_of_proceedsNext next, proceed, State.setSchedule_phase, phase]

end

theorem buildBanks_of_problem {s : State} {r : ConfigReason} (img : List Byte)
    (h : Params.topologyProblem s.params = some r) : buildBanks img s = raiseHost (.configError r) s := by
  simp only [buildBanks, h]

theorem buildBanks_of_good {s : State} (img : List Byte) (h : Params.topologyProblem s.params = none) :
    buildBanks img s = .next ((s.setBanks (s.params.banks.map Bank.fresh)).setPhase (.load img)) := by
  simp only [buildBanks, h]

theorem loadImage_of_ok {s : State} {img : List Byte} {m : Memory} {entry : Word}
    (h : load s.params img s.banks = (m, .ok entry)) :
    loadImage img s = .next ((s.setBanks m).setPhase (.construct entry)) := by
  simp only [loadImage, h]

theorem loadImage_of_error {s : State} {img : List Byte} {m : Memory} {f : FaultKind}
    (h : load s.params img s.banks = (m, .error f)) : loadImage img s = raiseHost f (s.setBanks m) := by
  simp only [loadImage, h]

theorem step_builds {s : State} {es : List Event} {img : List Byte} (next : ProceedsNext s es)
    (phase : s.phase = .build img) (good : Params.topologyProblem s.params = none) :
    step s = .next (((s.setSchedule es).setBanks (s.params.banks.map Bank.fresh)).setPhase (.load img)) :=
  (step_of_build next phase).trans (buildBanks_of_good (s := s.setSchedule es) img good)

theorem step_loads {s : State} {es : List Event} {img : List Byte} {m : Memory} {entry : Word}
    (next : ProceedsNext s es) (phase : s.phase = .load img) (hload : load s.params img s.banks = (m, .ok entry)) :
    step s = .next (((s.setSchedule es).setBanks m).setPhase (.construct entry)) :=
  (step_of_load next phase).trans (loadImage_of_ok (s := s.setSchedule es) hload)

/-- Settles O30: each of the three is raised by the host, which ends the simulation under both scopes. -/
theorem hostFaultEndsTheSimulation : Obligations.HostFaultEndsTheSimulation := by
  intro s es he
  refine ⟨fun a v hout hev => ?_, fun img m f next phase hload => ?_, fun img r next phase hbad => ?_⟩
  · have hs := (Memory.select_none_iff s.banks a).2 hout
    rcases hev with hev | hev
    · exact (step_of_event he hev).trans
        (hostWriteStep_of_error (s := s.setSchedule es) (Memory.hostWrite_of_unclaimed v hs))
    · exact (step_of_event he hev).trans
        (hostReadStep_of_error (s := s.setSchedule es) (Memory.hostRead_of_unclaimed hs))
  · exact (step_of_load next phase).trans (loadImage_of_error (s := s.setSchedule es) hload)
  · exact (step_of_build next phase).trans (buildBanks_of_problem (s := s.setSchedule es) img hbad)

/-! ## The topology (R105) -/

theorem topologyProblem_none_iff (p : Params) : Params.topologyProblem p = none ↔
    (∀ e ∈ p.banks, e.base.toNat + e.size.toNat ≤ 2 ^ 32) ∧ (p.harts.map (·.id)).Nodup := by
  unfold Params.topologyProblem
  split_ifs with hbank hids
  · simp only [List.any_eq_true, decide_eq_true_eq] at hbank
    obtain ⟨e, he, hlt⟩ := hbank
    exact ⟨fun h => (nomatch h), fun h => absurd (h.1 e he) (Nat.not_le.2 hlt)⟩
  · simp only [List.any_eq_true, decide_eq_true_eq, not_exists, not_and, Nat.not_lt] at hbank
    exact ⟨fun _ => ⟨hbank, hids⟩, fun _ => rfl⟩
  · exact ⟨fun h => (nomatch h), fun h => absurd h.2 hids⟩

theorem powerOn_proceedsNext (p : Params) (img : List Byte) : ProceedsNext (State.powerOn p img) [] :=
  ⟨rfl, .inl ⟨rfl, rfl⟩⟩

/-- Settles O58: the first step checks the topology and raises what it finds. -/
theorem badTopologyRaisesConfigError : Obligations.BadTopologyRaisesConfigError := by
  intro p img
  have hstep := step_of_build (powerOn_proceedsNext p img) rfl
  have hbad : ((∃ e ∈ p.banks, 2 ^ 32 < e.base.toNat + e.size.toNat) ∨ ¬(p.harts.map (·.id)).Nodup) ↔
      Params.topologyProblem p ≠ none := by
    rw [ne_eq, topologyProblem_none_iff, not_and_or]
    simp only [not_forall, Nat.not_le, exists_prop]
  rw [hbad, hstep]
  cases hp : Params.topologyProblem p with
  | none =>
    rw [buildBanks_of_good img (s := (State.powerOn p img).setSchedule []) hp]
    exact ⟨fun ⟨_, h⟩ => (nomatch h), fun h => absurd rfl h⟩
  | some r =>
    rw [buildBanks_of_problem img (s := (State.powerOn p img).setSchedule []) hp]
    exact ⟨fun _ => Option.some_ne_none r, fun _ => ⟨r, rfl⟩⟩

theorem run_succ_of_next {s t : State} (h : step s = .next t) (n : Nat) :
    Host.Core.run Sys2Proof.core (n + 1) s = Host.Core.run Sys2Proof.core n t := by
  have h' : Sys2Proof.core.step s = .next t := h
  simp only [Host.Core.run, h']

/-- Settles O57: build, load and construct are the three steps due from power-on. -/
theorem bringUpConstructsTheSystem : Obligations.BringUpConstructsTheSystem := by
  intro p img m entry hgood hload
  have hbuilt : step (State.powerOn p img) = .next { State.powerOn p img with
      banks := p.banks.map Bank.fresh, phase := .load img } :=
    step_builds (powerOn_proceedsNext p img) rfl hgood
  have hloaded : step { State.powerOn p img with banks := p.banks.map Bank.fresh, phase := .load img } =
      .next { State.powerOn p img with banks := m, phase := .construct entry } :=
    step_loads (es := []) ⟨rfl, .inl ⟨rfl, rfl⟩⟩ rfl hload
  have hconstructed : step { State.powerOn p img with banks := m, phase := .construct entry } =
      .next { State.powerOn p img with
        banks := m, phase := .running, harts := p.harts.map (HartEntry.build entry) } :=
    step_of_construct (es := []) ⟨rfl, .inl ⟨rfl, rfl⟩⟩ rfl
  refine ⟨_, (run_succ_of_next hbuilt 2).trans ((run_succ_of_next hloaded 1).trans (run_succ_of_next hconstructed 0)),
    rfl, rfl, rfl, rfl, rfl, hartIds_of_built rfl, fun k e he => ⟨HartEntry.build entry e, ?_, rfl, rfl, rfl, rfl,
      RegisterFile.get_zeroFile⟩⟩
  exact List.getElem?_map.trans (congrArg (Option.map (HartEntry.build entry)) he)

/-- Settles O59: the harts of `State.reset` are constructed and its banks fresh. -/
theorem resetStateIsConstructed : Obligations.ResetStateIsConstructed := by
  refine ⟨fun h hh => ?_, fun b hb a => ?_, rfl, rfl, List.cons_ne_nil _ _, List.cons_ne_nil _ _⟩
  · obtain ⟨e, -, rfl⟩ := List.mem_map.1 hh
    exact ⟨rfl, RegisterFile.get_zeroFile, rfl, rfl⟩
  · obtain ⟨e, -, rfl⟩ := List.mem_map.1 hb
    exact Bank.byteAt_fresh e a

/-! ## The end of a simulation (R103, R107) -/

theorem ended_iff (s : State) : s.ended = true ↔
    s.refused = true ∨ (s.params.faultScope = .terminateSimulation ∧ s.faults ≠ []) ∨
      ∃ r ∈ s.faults, r.agent = .host := by
  simp only [State.ended, FaultRecord.terminates, Bool.or_eq_true, List.any_eq_true, decide_eq_true_eq]
  refine or_congr_right ⟨?_, ?_⟩
  · rintro ⟨r, hr, hscope | hagent⟩
    · exact .inl ⟨hscope, List.ne_nil_of_mem hr⟩
    · exact .inr ⟨r, hr, hagent⟩
  · rintro (⟨hscope, hne⟩ | ⟨r, hr, hagent⟩)
    · obtain ⟨r, hr⟩ := List.exists_mem_of_ne_nil _ hne
      exact ⟨r, hr, .inl hscope⟩
    · exact ⟨r, hr, .inr hagent⟩

/-- The fault is one of the hardware (R99). -/
def Fault.IsRaised (e : Fault) : Prop := ∃ r t, e = .raised r t

/-- The fault is one of the hardware, or a driver's stop. -/
def Fault.IsRaisedOrStop (e : Fault) : Prop := e.IsRaised ∨ ∃ r, e = .driverStopped r

/-- Every fault the outcome can be meets `P`. -/
def Result.FaultsOnly (P : Fault → Prop) (r : Result) : Prop := ∀ e, r = .fault e → P e

theorem Result.FaultsOnly.mono {P Q : Fault → Prop} {r : Result} (h : r.FaultsOnly P) (hpq : ∀ e, P e → Q e) :
    r.FaultsOnly Q := fun e he => hpq e (h e he)

theorem faultsOnly_next (P : Fault → Prop) (t : State) : Result.FaultsOnly P (.next t) := fun _ h => nomatch h

theorem faultsOnly_refused (P : Fault → Prop) (r : Refusal) : Result.FaultsOnly P (.refused r) := fun _ h => nomatch h

theorem raiseHost_faultsOnly (f : FaultKind) (s : State) : (raiseHost f s).FaultsOnly Fault.IsRaised := by
  rintro e ⟨⟩
  exact ⟨_, _, rfl⟩

theorem raise_faultsOnly (k : Nat) (f : FaultKind) (s : State) : (raise k f s).FaultsOnly Fault.IsRaised := by
  rcases raise_cases k f s with ⟨-, e⟩ | ⟨h, -, -, e⟩ | ⟨h, -, -, e⟩ <;> rw [e]
  · exact faultsOnly_refused _ _
  · rintro e ⟨⟩
    exact ⟨_, _, rfl⟩
  · exact faultsOnly_next _ _

theorem exec_faultsOnly (i : Instr) (s : State) : Result.FaultsOnly Fault.IsRaised (exec i s) := by
  cases i with
  | nop => exact faultsOnly_next _ s
  | unclassified w =>
    change (execUnclassified w s).FaultsOnly Fault.IsRaised
    rw [execUnclassified_eq]
    rcases executeUnclassified_cases w s with ⟨-, e⟩ | ⟨-, -, e⟩ | ⟨-, h, -, e⟩ <;> rw [e]
    · exact faultsOnly_next _ _
    · exact faultsOnly_refused _ _
    · exact faultsOnly_refused _ _

theorem tick_faultsOnly (k : Nat) (s : State) : (tick k s).FaultsOnly Fault.IsRaised := by
  rcases tick_cases k s with ⟨-, e⟩ | ⟨h, f, -, -, e⟩ | ⟨h, h', o, -, -, e⟩ <;> rw [e]
  · exact faultsOnly_refused _ _
  · exact raise_faultsOnly k f s
  · exact exec_faultsOnly (decode h'.ir) (s.afterFetch k h' o)

theorem updateHart_faultsOnly (k : Nat) (g : Hart → Hart) (s : State) :
    (updateHart k g s).FaultsOnly Fault.IsRaised := by
  unfold updateHart
  cases s.harts[k]? with
  | none => exact faultsOnly_refused _ _
  | some h => exact faultsOnly_next _ _

theorem hostWriteStep_faultsOnly (a : Nat) (v : Byte) (s : State) :
    (hostWriteStep a v s).FaultsOnly Fault.IsRaised := by
  cases h : s.banks.hostWrite a v with
  | ok m => rw [hostWriteStep_of_ok h]; exact faultsOnly_next _ _
  | error f => rw [hostWriteStep_of_error h]; exact raiseHost_faultsOnly f s

theorem hostReadStep_faultsOnly (a : Nat) (s : State) : (hostReadStep a s).FaultsOnly Fault.IsRaised := by
  cases h : s.banks.hostRead a with
  | ok v => rw [hostReadStep_of_ok h]; exact faultsOnly_next _ _
  | error f => rw [hostReadStep_of_error h]; exact raiseHost_faultsOnly f s

theorem buildBanks_faultsOnly (img : List Byte) (s : State) : (buildBanks img s).FaultsOnly Fault.IsRaised := by
  cases h : Params.topologyProblem s.params with
  | none => rw [buildBanks_of_good img h]; exact faultsOnly_next _ _
  | some r => rw [buildBanks_of_problem img h]; exact raiseHost_faultsOnly _ s

theorem loadImage_faultsOnly (img : List Byte) (s : State) : (loadImage img s).FaultsOnly Fault.IsRaised := by
  rcases h : load s.params img s.banks with ⟨m, f | entry⟩
  · rw [loadImage_of_error h]; exact raiseHost_faultsOnly f _
  · rw [loadImage_of_ok h]; exact faultsOnly_next _ _

theorem drive_faultsOnly (s : State) : (drive s).FaultsOnly Fault.IsRaisedOrStop := by
  unfold drive
  split
  · rintro e ⟨⟩
    exact .inr ⟨_, rfl⟩
  · cases s.nextRound with
    | nil =>
      rintro e ⟨⟩
      exact .inr ⟨_, rfl⟩
    | cons k rest => exact (tick_faultsOnly k (s.countTick k rest)).mono fun _ => .inl

theorem proceed_faultsOnly (s : State) : (proceed s).FaultsOnly Fault.IsRaisedOrStop := by
  unfold proceed
  cases s.phase with
  | build img => exact (buildBanks_faultsOnly img s).mono fun _ => .inl
  | load img => exact (loadImage_faultsOnly img s).mono fun _ => .inl
  | construct entry => exact faultsOnly_next _ _
  | running => exact drive_faultsOnly s

theorem perform_faultsOnly (e : Event) (s : State) : (perform e s).FaultsOnly Fault.IsRaisedOrStop := by
  cases e with
  | auto => exact proceed_faultsOnly s
  | tick k => exact (tick_faultsOnly k s).mono fun _ => .inl
  | halt k => exact (updateHart_faultsOnly k Hart.halt s).mono fun _ => .inl
  | reset k r => exact (updateHart_faultsOnly k (Hart.reset r) s).mono fun _ => .inl
  | writeByte a v => exact (hostWriteStep_faultsOnly a v s).mono fun _ => .inl
  | readByte a => exact (hostReadStep_faultsOnly a s).mono fun _ => .inl

theorem not_isRaised_driverStopped (r : StopReason) : ¬(Fault.driverStopped r).IsRaised := fun ⟨_, _, h⟩ => nomatch h

theorem not_isRaisedOrStop_simulationEnded : ¬Fault.simulationEnded.IsRaisedOrStop := by
  rintro (⟨r, t, h⟩ | ⟨r, h⟩) <;> cases h

/-- Settles O31: a step answers so when the simulation has ended, and no operation of a step does. -/
theorem endedSimulationHasNoStep : Obligations.EndedSimulationHasNoStep := by
  intro s
  rw [← ended_iff]
  unfold step advance
  cases s.ended with
  | true => exact ⟨fun _ => rfl, fun _ => rfl⟩
  | false =>
    refine ⟨fun h => absurd ?_ not_isRaisedOrStop_simulationEnded, fun h => nomatch h⟩
    rw [if_neg Bool.false_ne_true] at h
    cases hs : s.schedule with
    | nil => rw [hs] at h; exact proceed_faultsOnly s _ h
    | cons e es => rw [hs] at h; exact perform_faultsOnly e (s.setSchedule es) _ h

end Sys2Proof.Machine

/-! PROOFS of the statements about the drivers (spec/40_pipeline.md R81, R84), and about an instruction placed where the
next step fetches it. -/

namespace Sys2Proof.Machine

/-! ## The driver's round -/

theorem haltedAt_eq_false_iff (s : State) (k : Nat) :
    s.haltedAt k = false ↔ ∃ h, s.harts[k]? = some h ∧ h.halted = false := by
  unfold State.haltedAt
  cases s.harts[k]? with
  | none => simp
  | some h => simp

theorem mem_runningHarts_iff (s : State) (k : Nat) : k ∈ s.runningHarts ↔ s.haltedAt k = false := by
  simp only [State.runningHarts, List.mem_filter, List.mem_range, Bool.not_eq_true', and_iff_right_iff_imp]
  intro hk
  obtain ⟨h, hget, -⟩ := (haltedAt_eq_false_iff s k).1 hk
  exact (List.getElem?_eq_some_iff.1 hget).1

theorem runningHarts_pairwise (s : State) : s.runningHarts.Pairwise (· < ·) := List.pairwise_lt_range.filter _

theorem nextRound_of_nil {s : State} (h : s.round.dropWhile s.haltedAt = []) : s.nextRound = s.runningHarts := by
  rw [State.nextRound, h]

theorem nextRound_of_ne_nil {s : State} (h : s.round.dropWhile s.haltedAt ≠ []) :
    s.nextRound = s.round.dropWhile s.haltedAt := by
  unfold State.nextRound
  cases hd : s.round.dropWhile s.haltedAt with
  | nil => exact absurd hd h
  | cons k ks => rfl

/-- The next hart of a round is not halted. -/
theorem haltedAt_of_nextRound {s : State} {k : Nat} {rest : List Nat} (h : s.nextRound = k :: rest) :
    s.haltedAt k = false := by
  by_cases hd : s.round.dropWhile s.haltedAt = []
  · rw [nextRound_of_nil hd] at h
    exact (mem_runningHarts_iff s k).1 (h ▸ List.mem_cons_self)
  · rw [nextRound_of_ne_nil hd] at h
    have hhead := List.head_dropWhile_not s.haltedAt hd
    simpa only [h, List.head_cons] using hhead

/-- Settles O48, by the rules of the round. -/
theorem driverTicksRunningHartsInOrder : Obligations.DriverTicksRunningHartsInOrder := by
  intro s
  refine ⟨runningHarts_pairwise s, fun k => (mem_runningHarts_iff s k).trans (haltedAt_eq_false_iff s k),
    nextRound_of_nil, nextRound_of_ne_nil, fun k rest h => ⟨?_, fun hd => ?_, fun hd => ?_⟩⟩
  · exact (haltedAt_eq_false_iff s k).1 (haltedAt_of_nextRound h)
  · rw [State.countTick_round, hd, Driver.after]
  · rw [State.countTick_round, hd, Driver.after]

theorem haltedAt_of_all_halted {s : State} (h : ∀ h ∈ s.harts, h.halted = true) (k : Nat) : s.haltedAt k = true := by
  rw [← Bool.not_eq_false, haltedAt_eq_false_iff]
  rintro ⟨g, hg, hrun⟩
  exact Bool.false_ne_true (hrun.symm.trans (h g (List.mem_of_getElem? hg)))

theorem nextRound_eq_nil_iff (s : State) : s.nextRound = [] ↔ ∀ h ∈ s.harts, h.halted = true := by
  constructor
  · intro hnil h hh
    have hd : s.round.dropWhile s.haltedAt = [] := by
      by_contra hne
      exact hne ((nextRound_of_ne_nil hne).symm.trans hnil)
    obtain ⟨k, hk⟩ := List.mem_iff_getElem?.1 hh
    by_contra hrun
    have hmem : k ∈ s.runningHarts := (mem_runningHarts_iff s k).2
      ((haltedAt_eq_false_iff s k).2 ⟨h, hk, Bool.not_eq_true _ ▸ hrun⟩)
    rw [← nextRound_of_nil hd, hnil] at hmem
    cases hmem
  · intro hall
    rw [List.eq_nil_iff_forall_not_mem]
    intro k hk
    cases hr : s.nextRound with
    | nil => rw [hr] at hk; cases hk
    | cons j rest =>
      exact Bool.false_ne_true ((haltedAt_of_nextRound hr).symm.trans (haltedAt_of_all_halted hall j))

/-! ## The driver's stops -/

theorem drive_of_maxitr {s : State} (h : s.ticksLeft = some 0) : drive s = .fault (.driverStopped .maxitrReached) :=
  if_pos h

theorem drive_of_all_halted {s : State} (hleft : s.ticksLeft ≠ some 0) (hround : s.nextRound = []) :
    drive s = .fault (.driverStopped .allHalted) := by
  rw [drive, if_neg hleft, hround]

/-- With ticks left and a hart to tick the driver does not stop. -/
theorem drive_not_stopped {s : State} (hleft : s.ticksLeft ≠ some 0) (hround : s.nextRound ≠ []) (r : StopReason) :
    drive s ≠ .fault (.driverStopped r) := by
  intro h
  rw [drive, if_neg hleft] at h
  cases hr : s.nextRound with
  | nil => exact hround hr
  | cons k rest =>
    rw [hr] at h
    exact not_isRaised_driverStopped r (tick_faultsOnly k (s.countTick k rest) _ h)

theorem drive_maxitr_iff (s : State) :
    drive s = .fault (.driverStopped .maxitrReached) ↔ s.ticksLeft = some 0 := by
  refine ⟨fun h => ?_, drive_of_maxitr⟩
  by_contra hleft
  by_cases hround : s.nextRound = []
  · cases h.symm.trans (drive_of_all_halted hleft hround)
  · exact drive_not_stopped hleft hround _ h

theorem drive_allHalted_iff {s : State} (hleft : s.ticksLeft ≠ some 0) :
    drive s = .fault (.driverStopped .allHalted) ↔ ∀ h ∈ s.harts, h.halted = true := by
  rw [← nextRound_eq_nil_iff]
  refine ⟨fun h => ?_, drive_of_all_halted hleft⟩
  by_contra hround
  exact drive_not_stopped hleft hround _ h

/-- Settles O49: with nothing pending the step is the driver's, from the same ticks left and the same harts. -/
theorem driverStopsWhenHaltedOrCapped : Obligations.DriverStopsWhenHaltedOrCapped := by
  intro s he hs hrun
  rw [step_of_running ⟨he, .inl ⟨hs, rfl⟩⟩ hrun]
  exact ⟨drive_maxitr_iff (s.setSchedule []), drive_allHalted_iff (s := s.setSchedule [])⟩

theorem State.Clean.not_ended {s : State} (h : s.Clean) : s.ended = false := by
  rw [State.ended, h.1, h.2, List.any_nil, Bool.or_self]

/-- Settles O50: with every hart halted the driver has no tick left to take. -/
theorem finalStateTakesNoStepByItself : Obligations.FinalStateTakesNoStepByItself := by
  rintro s ⟨hclean, hrun, hall⟩ hs
  obtain ⟨hmax, hhalted⟩ := driverStopsWhenHaltedOrCapped s hclean.not_ended hs hrun
  by_cases hleft : s.ticksLeft = some 0
  · exact ⟨_, hmax.2 hleft⟩
  · exact ⟨_, (hhalted hleft).2 hall⟩

/-! ## An instruction placed where the next step fetches it -/

theorem tableBytes_32 {w : Nat} (hw : w < 2 ^ 32) : tableBytes 32 w = Word.toBytes 4 (BitVec.ofNat 32 w) := by
  rw [tableBytes, Nat.mod_eq_of_lt hw]

theorem placeAt_of_select {m : Memory} {pc : Word} {b : Bank} (vs : List Byte) (h : m.select pc.toNat = some b) :
    m.placeAt pc vs = m.replace pc.toNat (b.writeBytes pc.toNat vs).1 := by
  rw [Memory.placeAt, h]

theorem placeInstr_of_nextHart {s : State} {k : Nat} {h : Hart} (vs : List Byte) (hn : s.nextHart = some k)
    (hk : s.harts[k]? = some h) : s.placeInstr vs = s.setBanks (s.banks.placeAt h.pc vs) := by
  simp only [State.placeInstr, hn, hk]

/-- Settles O51: the bank that the fetch reads is replaced by one with the four bytes stored, nothing else. -/
theorem placedInstructionIsFetched : Obligations.PlacedInstructionIsFetched := by
  intro s k h b w hm hn hk hrun haligned hs hperm hfit hw
  have hb : b.wf = true := (Memory.wf_iff s.banks).1 hm b (Memory.select_mem hs).1
  have hentry := Bank.writeBytes_toBankEntry (Word.toBytes 4 (BitVec.ofNat 32 w)) b h.pc.toNat
  have hlen := Word.toBytes_length 4 (BitVec.ofNat 32 w)
  rw [State.withFetchWord, tableBytes_32 hw, placeInstr_of_nextHart _ hn hk, placeAt_of_select _ hs]
  refine ⟨⟨hrun, haligned, _, Memory.select_replace_self hs hentry, fun he => ?_, fun i hi => ⟨?_, ?_⟩⟩, rfl, hn,
    Memory.entries_replace hs hentry, fun x hx => Memory.hostRead_replace hs hentry ?_⟩
  · rw [hentry]; exact hperm he
  · rw [Bank.writeBytes_claims]; exact hfit i hi
  · have hi' : i < (Word.toBytes 4 (BitVec.ofNat 32 w)).length := hlen.symm ▸ hi
    exact (Bank.byteAt_writeBytes_of_fits hb hi' fun j hj => hfit j (by omega)).trans (Word.getElem_toBytes 4 _ i hi')
  · refine Bank.byteAt_writeBytes_other hb fun i hi hxi => ?_
    rw [hlen] at hi
    omega

end Sys2Proof.Machine

/-! PROOFS of the statements about the image loader (spec/41_image_loader.md): its checks, the segments it reads from
the file, and their placement. -/

namespace Sys2Proof.Machine

/-! ## The header's checks (R88) -/

theorem imageByte_eq_iff {img : List Byte} {o : Nat} (ho : o < img.length) (v : Byte) :
    imageByte img o = v ↔ img[o]? = some v := by
  rw [imageByte, List.getD_eq_getElem _ _ ho, List.getElem?_eq_getElem ho, Option.some.injEq]

/-- The checks of R88 on a file that holds a header, on the fields R86 gives it. -/
theorem checkHeader_of_long (p : Params) {img : List Byte} (h52 : 52 ≤ img.length) : checkHeader p img =
    if ¬(p.elfCheckMagic = true → img.take 4 = [0x7F#8, 0x45#8, 0x4C#8, 0x46#8]) then some .badMagic
    else if img[4]? ≠ some 1#8 then some .wrongClass
    else if img[5]? ≠ some 1#8 then some .wrongEndianness
    else if fileNat img 0x2C 2 = 0 then some .noSegments
    else if fileNat img 0x2A 2 < 32 ∨
      img.length < fileNat img 0x1C 4 + (fileNat img 0x2C 2 - 1) * fileNat img 0x2A 2 + 32 then some .badSegmentTable
    else none := by
  have hmagic : ((p.elfCheckMagic && decide (img.take 4 ≠ [0x7F#8, 0x45#8, 0x4C#8, 0x46#8])) = true) ↔
      ¬(p.elfCheckMagic = true → img.take 4 = [0x7F#8, 0x45#8, 0x4C#8, 0x46#8]) := by simp
  rw [checkHeader, if_neg (Nat.not_lt.2 h52)]
  simp only [hmagic, ne_eq, imageByte_eq_iff (show 4 < img.length by omega),
    imageByte_eq_iff (show 5 < img.length by omega), elfPhnum, elfPhentsize, elfPhoff, le16_eq, le32_eq, ite_or]

theorem load_of_checkImage_some {p : Params} {img : List Byte} {r : FormatReason} (h : checkImage p img = some r)
    (m : Memory) : load p img m = (m, .error (.formatError r)) := by
  simp only [load, h]

theorem checkImage_of_checkHeader_some {p : Params} {img : List Byte} {r : FormatReason}
    (h : checkHeader p img = some r) : checkImage p img = some r := by
  simp only [checkImage, h]

theorem checkImage_of_truncated {p : Params} {img : List Byte} (hs : HeaderSound p img)
    (ht : ∃ h ∈ eligibleSegments p img, img.length < h.offset + h.filesz) :
    checkImage p img = some .truncatedSegment := by
  have hany : ((eligibleSegments p img).any fun h => h.truncated img.length) = true := by
    simpa [ProgramHeader.truncated] using ht
  simp only [checkImage, (checkHeader_none_iff p img).2 hs, hany, if_pos]

/-! ## What a load can do -/

/-- An image that fails a check is a `FormatError`, with nothing stored (R89). -/
theorem imageSound_or_formatError (p : Params) (img : List Byte) (m : Memory) :
    ImageSound p img ∨ ∃ r, load p img m = (m, .error (.formatError r)) := by
  cases h : checkImage p img with
  | none => exact .inl ((checkImage_none_iff p img).1 h)
  | some r => exact .inr ⟨r, load_of_checkImage_some h m⟩

theorem load_of_placed {p : Params} {img : List Byte} {m m' : Memory} (hs : ImageSound p img)
    (h : placeSegments img (eligibleSegments p img) m = (m', none)) : load p img m = (m', .ok (elfEntry img)) := by
  simp only [load, (checkImage_none_iff p img).2 hs, h]

theorem load_of_stopped {p : Params} {img : List Byte} {m m' : Memory} {f : FaultKind} (hs : ImageSound p img)
    (h : placeSegments img (eligibleSegments p img) m = (m', some f)) : load p img m = (m', .error f) := by
  simp only [load, (checkImage_none_iff p img).2 hs, h]

/-- The load of a sound image places every segment, every address they cover being placeable. -/
structure LoadPlaces (p : Params) (img : List Byte) (m m' : Memory) : Prop where
  load      : load p img m = (m', .ok (elfEntry img))
  placed    : placeSegments img (eligibleSegments p img) m = (m', none)
  placeable : ∀ h ∈ eligibleSegments p img, ∀ a, h.covers a → Placeable m a

/-- The load of a sound image stops at address `x` of segment `h`, the first address in placing order that is not
placeable, with the segments before it and its own bytes below `x` placed (R95). -/
structure LoadStops (p : Params) (img : List Byte) (m m' : Memory) (x : Nat) (pre : List ProgramHeader)
    (h : ProgramHeader) (post : List ProgramHeader) : Prop where
  load     : load p img m = (m', .error (.outOfBounds x))
  segments : eligibleSegments p img = pre ++ h :: post
  covers   : h.covers x
  stopped  : ¬Placeable m x
  below    : ∀ a, h.covers a → a < x → Placeable m a
  before   : ∀ g ∈ pre, ∀ a, g.covers a → Placeable m a
  placed   : placeSegments img (pre ++ [{ h with filesz := x - h.paddr }]) m = (m', none)

theorem load_of_imageSound {p : Params} {img : List Byte} (hs : ImageSound p img) (m : Memory) :
    (∃ m', LoadPlaces p img m m') ∨ ∃ m' x pre h post, LoadStops p img m m' x pre h post := by
  rcases placeSegments_cases img (eligibleSegments p img) m hs.2 with
    ⟨m', e, hall⟩ | ⟨m', x, pre, h, post, e, segments, covers, stopped, below, before, placed⟩
  · exact .inl ⟨m', load_of_placed hs e, e, hall⟩
  · exact .inr ⟨m', x, pre, h, post, load_of_stopped hs e, segments, covers, stopped, below, before, placed⟩

/-- A load that succeeds is one of a sound image, and it has placed its segments. -/
theorem loadPlaces_of_load_ok {p : Params} {img : List Byte} {m m' : Memory} {e : Word}
    (h : load p img m = (m', .ok e)) : ImageSound p img ∧ e = elfEntry img ∧ LoadPlaces p img m m' := by
  rcases imageSound_or_formatError p img m with hs | ⟨r, h'⟩
  · rcases load_of_imageSound hs m with ⟨m2, places⟩ | ⟨m2, x, pre, g, post, stops⟩
    · cases h.symm.trans places.load
      exact ⟨hs, rfl, places⟩
    · cases h.symm.trans stops.load
  · cases h.symm.trans h'

theorem loadStops_of_load_outOfBounds {p : Params} {img : List Byte} {m m' : Memory} {x : Nat}
    (h : load p img m = (m', .error (.outOfBounds x))) :
    ImageSound p img ∧ ∃ pre g post, LoadStops p img m m' x pre g post := by
  rcases imageSound_or_formatError p img m with hs | ⟨r, h'⟩
  · rcases load_of_imageSound hs m with ⟨m2, places⟩ | ⟨m2, y, pre, g, post, stops⟩
    · cases h.symm.trans places.load
    · cases h.symm.trans stops.load
      exact ⟨hs, pre, g, post, stops⟩
  · cases h.symm.trans h'

theorem load_ne_formatError {p : Params} {img : List Byte} (hs : ImageSound p img) (m m' : Memory) (r : FormatReason) :
    load p img m ≠ (m', .error (.formatError r)) := by
  intro h
  rcases load_of_imageSound hs m with ⟨m2, places⟩ | ⟨m2, x, pre, g, post, stops⟩
  · cases h.symm.trans places.load
  · cases h.symm.trans stops.load

/-- Settles O52: the checks are made in their order, and a `FormatError` is the first that fails. -/
theorem headerChecksInOrder : Obligations.HeaderChecksInOrder := by
  intro p img m bad magic phentsize phnum
  have bad_of : ∀ r, checkHeader p img = some r → bad r := fun r h =>
    load_of_checkImage_some (checkImage_of_checkHeader_some h) m
  refine ⟨fun h => bad_of _ (if_pos h), fun h52 h1 => bad_of _ ?_, fun h52 h1 h2 => bad_of _ ?_,
    fun h52 h1 h2 h3 => bad_of _ ?_, fun h52 h1 h2 h3 h4 => bad_of _ ?_, fun h52 h1 h2 h3 h4 h5 => bad_of _ ?_,
    fun hs ht => load_of_checkImage_some (checkImage_of_truncated hs ht) m,
    fun hs r m' => load_ne_formatError hs m m' r⟩
  all_goals rw [checkHeader_of_long p h52]
  · rw [if_pos h1]
  · rw [if_neg (not_not.2 h1), if_pos h2]
  · rw [if_neg (not_not.2 h1), if_neg (not_not.2 h2), if_pos h3]
  · rw [if_neg (not_not.2 h1), if_neg (not_not.2 h2), if_neg (not_not.2 h3), if_pos h4]
  · rw [if_neg (not_not.2 h1), if_neg (not_not.2 h2), if_neg (not_not.2 h3), if_neg h4, if_pos h5]

/-- Settles O53: a `FormatError` is never raised by the placement. -/
theorem formatErrorStoresNothing : Obligations.FormatErrorStoresNothing := by
  intro p img m m' r h
  rcases imageSound_or_formatError p img m with hs | ⟨r', h'⟩
  · exact absurd h (load_ne_formatError hs m m' r)
  · exact congrArg Prod.fst (h.symm.trans h')

/-- Settles O54: the entry point is the word of the file at `0x18`, and no segment is no placement. -/
theorem loaderReturnsTheEntryPoint : Obligations.LoaderReturnsTheEntryPoint := by
  intro p img m
  constructor
  · intro m' e h i hi
    obtain ⟨⟨⟨h52, -⟩, -⟩, rfl, -⟩ := loadPlaces_of_load_ok h
    have hlt : 0x18 + i < img.length := by omega
    rw [eq_comm, ← imageByte_eq_iff hlt, elfEntry, le32Word, Word.extractLsb'_ofBytes _ i hi]
    match i, hi with
    | 0, _ => rfl
    | 1, _ => rfl
    | 2, _ => rfl
    | 3, _ => rfl
  · intro hs hnil
    have hsound : ImageSound p img := ⟨hs, fun h hh => by rw [hnil] at hh; cases hh⟩
    exact ⟨_, load_of_placed hsound (hnil ▸ rfl)⟩

/-! ## The segments of the file (R87, R91) -/

theorem readProgramHeader_eq (img : List Byte) (k : Nat) :
    readProgramHeader img (elfPhoff img + k * elfPhentsize img) = fileHeader img k := by
  simp only [readProgramHeader, fileHeader, fileHeaderAt, elfPhoff, elfPhentsize, le32_eq, le16_eq, le32Word_eq]

theorem programHeaders_eq (img : List Byte) :
    programHeaders img = (List.range (fileNat img 0x2C 2)).map (fileHeader img) := by
  simp only [programHeaders, readProgramHeader_eq, elfPhnum, le16_eq]

theorem eligible_of_listed {p : Params} {fs : List Word} (hp : p.allowedFlags = .listed fs) (h : ProgramHeader) :
    h.eligible p = decide (h.type = 1 ∧ h.flags ∈ fs) := by
  rw [ProgramHeader.eligible, hp, AllowList.allows, Bool.decide_and, List.contains_eq_mem]

theorem eligible_of_everything {p : Params} (hp : p.allowedFlags = .everything) (h : ProgramHeader) :
    h.eligible p = decide (h.type = 1) := by
  rw [ProgramHeader.eligible, hp, AllowList.allows, Bool.and_true]

/-- Header `k` lies no further in the file than the last one. -/
theorem fileHeaderAt_mono (img : List Byte) {j k : Nat} (h : j ≤ k) : fileHeaderAt img j ≤ fileHeaderAt img k :=
  Nat.add_le_add_left (Nat.mul_le_mul_right _ h) _

/-- Settles O60: the headers read are those of the file, and their order is kept. -/
theorem eligibleSegmentsAreReadFromTheFile : Obligations.EligibleSegmentsAreReadFromTheFile := by
  intro p img
  refine ⟨fun hs k hk => ?_, fun fs hp => ?_, fun hp => ?_⟩
  · obtain ⟨-, -, -, -, -, -, hlast⟩ := hs
    have hle : fileHeaderAt img k ≤ fileHeaderAt img (fileNat img 0x2C 2 - 1) := fileHeaderAt_mono img (by omega)
    omega
  · simp only [eligibleSegments, programHeaders_eq, eligible_of_listed hp]
  · simp only [eligibleSegments, programHeaders_eq, eligible_of_everything hp]

/-! ## What the placement leaves (R93, R94) -/

theorem placeBytes_cons_ok {a : Nat} {v : Byte} {vs : List Byte} {m m' : Memory}
    (h : placeBytes a (v :: vs) m = (m', none)) :
    ∃ m1, m.hostWrite a v = .ok m1 ∧ placeBytes (a + 1) vs m1 = (m', none) := by
  rw [placeBytes] at h
  split at h
  · cases h
  · cases hw : m.hostWrite a v with
    | error f => rw [hw] at h; cases h
    | ok m1 => rw [hw] at h; exact ⟨m1, rfl, h⟩

theorem hostRead_placeBytes_outside {vs : List Byte} {a x : Nat} {m m' : Memory} (hm : Memory.wf m = true)
    (h : placeBytes a vs m = (m', none)) (hx : ¬(a ≤ x ∧ x < a + vs.length)) : m'.hostRead x = m.hostRead x := by
  induction vs generalizing a m with
  | nil => cases h; rfl
  | cons v vs ih =>
    obtain ⟨m1, hw, hrest⟩ := placeBytes_cons_ok h
    rw [List.length_cons] at hx
    rw [ih (Memory.wf_hostWrite hm hw) hrest (by omega), Memory.hostRead_hostWrite_other hm hw (by omega)]

theorem hostRead_placeBytes_inside {vs : List Byte} {a i : Nat} {m m' : Memory} (hm : Memory.wf m = true)
    (h : placeBytes a vs m = (m', none)) (hi : i < vs.length) : m'.hostRead (a + i) = .ok vs[i] := by
  induction vs generalizing a i m with
  | nil => cases hi
  | cons v vs ih =>
    obtain ⟨m1, hw, hrest⟩ := placeBytes_cons_ok h
    have hm1 := Memory.wf_hostWrite hm hw
    cases i with
    | zero =>
      have hout : ¬(a + 1 ≤ a ∧ a < a + 1 + vs.length) := by omega
      exact (hostRead_placeBytes_outside hm1 hrest hout).trans (Memory.hostRead_hostWrite_same hm hw)
    | succ i =>
      have hnext : a + (i + 1) = a + 1 + i := by omega
      rw [hnext]
      exact ih hm1 hrest (Nat.lt_of_succ_lt_succ hi)

section
variable {img : List Byte} {h : ProgramHeader} {hs : List ProgramHeader} {m m1 m' : Memory} {a : Nat}

theorem readAfterPlacing_singleton_covered (hc : h.covers a) :
    readAfterPlacing img [h] m a = .ok (img.getD (h.offset + (a - h.paddr)) 0#8) := by
  have hd : (decide (h.paddr ≤ a) && decide (a < h.paddr + h.filesz)) = true := by
    simpa [ProgramHeader.covers] using hc
  simp only [readAfterPlacing, List.reverse_singleton, List.find?_singleton, hd, if_pos]

theorem readAfterPlacing_singleton_uncovered (hc : ¬h.covers a) : readAfterPlacing img [h] m a = m.hostRead a := by
  have hd : ¬(decide (h.paddr ≤ a) && decide (a < h.paddr + h.filesz)) = true := by
    simpa [ProgramHeader.covers] using hc
  simp only [readAfterPlacing, List.reverse_singleton, List.find?_singleton, if_neg hd]

/-- Placing the first segment and then the others is placing them all: a later segment wins over the first. -/
theorem readAfterPlacing_cons (h1 : m1.hostRead a = readAfterPlacing img [h] m a) :
    readAfterPlacing img hs m1 a = readAfterPlacing img (h :: hs) m a := by
  unfold readAfterPlacing at h1 ⊢
  rw [List.reverse_cons, List.find?_append]
  cases hs.reverse.find? fun g => decide (g.paddr ≤ a) && decide (a < g.paddr + g.filesz) with
  | some g => rfl
  | none => exact h1

/-- The bytes of one segment are placed at the addresses it covers. -/
theorem hostRead_placeSegment (hm : Memory.wf m = true) (hl : h.offset + h.filesz ≤ img.length)
    (hp : placeBytes h.paddr (h.bytes img) m = (m1, none)) : m1.hostRead a = readAfterPlacing img [h] m a := by
  have hlen := ProgramHeader.bytes_length hl
  by_cases hc : h.covers a
  · obtain ⟨i, rfl⟩ := Nat.exists_eq_add_of_le hc.1
    have hi : i < (h.bytes img).length := by rw [hlen]; exact Nat.lt_of_add_lt_add_left hc.2
    rw [readAfterPlacing_singleton_covered hc, hostRead_placeBytes_inside hm hp hi, Nat.add_sub_cancel_left,
      List.getD_eq_getElem _ _ (by omega)]
    simp only [ProgramHeader.bytes, List.getElem_take, List.getElem_drop]
  · rw [readAfterPlacing_singleton_uncovered hc]
    refine hostRead_placeBytes_outside hm hp ?_
    rw [hlen]
    exact hc

theorem placeSegments_cons_ok (hp : placeSegments img (h :: hs) m = (m', none)) :
    ∃ m1, placeBytes h.paddr (h.bytes img) m = (m1, none) ∧ placeSegments img hs m1 = (m', none) := by
  rw [placeSegments] at hp
  rcases hb : placeBytes h.paddr (h.bytes img) m with ⟨m1, _ | f⟩
  · rw [hb] at hp; exact ⟨m1, rfl, hp⟩
  · rw [hb] at hp; cases hp

theorem hostRead_placeSegments (hm : Memory.wf m = true) (hl : ∀ g ∈ hs, g.offset + g.filesz ≤ img.length)
    (hp : placeSegments img hs m = (m', none)) : m'.hostRead a = readAfterPlacing img hs m a := by
  induction hs generalizing m with
  | nil => cases hp; rfl
  | cons h hs ih =>
    obtain ⟨m1, hfirst, hrest⟩ := placeSegments_cons_ok hp
    have hm1 : Memory.wf m1 = true := by simpa [hfirst] using wf_placeBytes (h.bytes img) h.paddr hm
    rw [List.forall_mem_cons] at hl
    exact (ih hm1 hl.2 hrest).trans (readAfterPlacing_cons (hostRead_placeSegment hm hl.1 hfirst))

end

/-- Settles O55: a load that succeeds has placed the eligible segments, in file order. -/
theorem loaderPlacesSegmentsLastWins : Obligations.LoaderPlacesSegmentsLastWins := by
  intro p img m m' e hm h a
  obtain ⟨hsound, -, places⟩ := loadPlaces_of_load_ok h
  exact hostRead_placeSegments hm hsound.2 places.placed

theorem not_placeable_iff (m : Memory) (x : Nat) :
    ¬Placeable m x ↔ (∀ b ∈ m, b.claims x = false) ∨ 2 ^ 32 ≤ x := by
  rw [Placeable, not_and_or, Nat.not_lt, or_comm]
  simp only [not_exists, not_and, Bool.not_eq_true]

/-- The bytes placed before a load stops stand: those of the segments before, and its own bytes below `x`. -/
theorem LoadStops.hostRead {p : Params} {img : List Byte} {m m' : Memory} {x : Nat} {pre post : List ProgramHeader}
    {h : ProgramHeader} (stops : LoadStops p img m m' x pre h post) (hs : ImageSound p img) (hm : Memory.wf m = true)
    (a : Nat) : m'.hostRead a = readAfterPlacing img (pre ++ [{ h with filesz := x - h.paddr }]) m a := by
  have heq := stops.segments
  refine hostRead_placeSegments hm (fun g hg => ?_) stops.placed
  rcases List.mem_append.1 hg with hg | hg
  · exact hs.2 g (heq ▸ List.mem_append_left _ hg)
  · have hl := hs.2 h (heq ▸ List.mem_append_right _ List.mem_cons_self)
    have hlt := stops.covers.2
    cases List.mem_singleton.1 hg
    change h.offset + (x - h.paddr) ≤ img.length
    omega

/-- Settles O56: a load of a sound image places all its segments or stops at the first address that is not placeable. -/
theorem placementFailsOnlyOutsideTheBanks : Obligations.PlacementFailsOnlyOutsideTheBanks := by
  intro p img m
  refine ⟨fun hs => ?_, fun m' x h => ?_⟩
  · rcases load_of_imageSound hs m with ⟨m', places⟩ | ⟨m', x, pre, h, post, stops⟩
    · exact ⟨⟨fun _ => places.placeable, fun _ => ⟨m', _, places.load⟩⟩,
        ⟨fun ⟨_, _, h'⟩ => (nomatch places.load.symm.trans h'),
          fun ⟨h, hh, a, ha, hna⟩ => absurd (places.placeable h hh a ha) hna⟩⟩
    · have hmem : h ∈ eligibleSegments p img := stops.segments ▸ List.mem_append_right _ List.mem_cons_self
      exact ⟨⟨fun ⟨_, _, h'⟩ => (nomatch stops.load.symm.trans h'),
          fun hall => absurd (hall h hmem x stops.covers) stops.stopped⟩,
        ⟨fun _ => ⟨h, hmem, x, stops.covers, stops.stopped⟩, fun _ => ⟨m', x, stops.load⟩⟩⟩
  · obtain ⟨hs, pre, g, post, stops⟩ := loadStops_of_load_outOfBounds h
    exact ⟨(not_placeable_iff m x).1 stops.stopped, pre, g, post, stops.segments, stops.covers, stops.below,
      stops.before, stops.hostRead hs⟩

end Sys2Proof.Machine
